-- ==== Sys2Proof/Word.lean ====
section
/-! DEFINITION. The bit-vector types of the core (00_scope.md R8, R9): every value is unsigned, and arithmetic on
these types wraps. -/

namespace Sys2Proof

/-- `u8`: a general register, an immediate `kk`, a byte of RAM, a timer. -/
abbrev Byte := BitVec 8

/-- `u16`: an opcode word, `pc`, `I`, a stack slot. -/
abbrev Word := BitVec 16

/-- `u4`: a register index `x` or `y`, or the row count `n` (30_encoding.md R61). -/
abbrev Nibble := BitVec 4

/-- `u12`: the address operand `nnn` (30_encoding.md R61). -/
abbrev Addr := BitVec 12

end Sys2Proof
end

