-- ==== Sys2Proof/Syntax.lean ====
section
/-! DEFINITION. The 35 instruction variants (30_encoding.md R62), one constructor per row of the opcode table in its
order. A variant carries only its own operand fields (R70). -/

namespace Sys2Proof

/-- A decoded instruction: row numbers are those of R62. -/
inductive Instr where
  /-- row 1, CLS -/
  | cls
  /-- row 2, RET -/
  | ret
  /-- row 3, SYS nnn -/
  | sys (nnn : Addr)
  /-- row 4, JP nnn -/
  | jp (nnn : Addr)
  /-- row 5, CALL nnn -/
  | call (nnn : Addr)
  /-- row 6, SE Vx, kk -/
  | seImm (x : Nibble) (kk : Byte)
  /-- row 7, SNE Vx, kk -/
  | sneImm (x : Nibble) (kk : Byte)
  /-- row 8, SE Vx, Vy -/
  | seReg (x y : Nibble)
  /-- row 9, LD Vx, kk -/
  | ldImm (x : Nibble) (kk : Byte)
  /-- row 10, ADD Vx, kk -/
  | addImm (x : Nibble) (kk : Byte)
  /-- row 11, LD Vx, Vy -/
  | ldReg (x y : Nibble)
  /-- row 12, OR Vx, Vy -/
  | orReg (x y : Nibble)
  /-- row 13, AND Vx, Vy -/
  | andReg (x y : Nibble)
  /-- row 14, XOR Vx, Vy -/
  | xorReg (x y : Nibble)
  /-- row 15, ADD Vx, Vy -/
  | addReg (x y : Nibble)
  /-- row 16, SUB Vx, Vy -/
  | subReg (x y : Nibble)
  /-- row 17, SHR Vx, Vy -/
  | shr (x y : Nibble)
  /-- row 18, SUBN Vx, Vy -/
  | subn (x y : Nibble)
  /-- row 19, SHL Vx, Vy -/
  | shl (x y : Nibble)
  /-- row 20, SNE Vx, Vy -/
  | sneReg (x y : Nibble)
  /-- row 21, LD I, nnn -/
  | ldI (nnn : Addr)
  /-- row 22, JP V0, nnn -/
  | jpV0 (nnn : Addr)
  /-- row 23, RND Vx, kk -/
  | rnd (x : Nibble) (kk : Byte)
  /-- row 24, DRW Vx, Vy, n -/
  | drw (x y n : Nibble)
  /-- row 25, SKP Vx -/
  | skp (x : Nibble)
  /-- row 26, SKNP Vx -/
  | sknp (x : Nibble)
  /-- row 27, LD Vx, DT -/
  | ldVxDT (x : Nibble)
  /-- row 28, LD Vx, K -/
  | ldVxK (x : Nibble)
  /-- row 29, LD DT, Vx -/
  | ldDTVx (x : Nibble)
  /-- row 30, LD ST, Vx -/
  | ldSTVx (x : Nibble)
  /-- row 31, ADD I, Vx -/
  | addIVx (x : Nibble)
  /-- row 32, LD F, Vx -/
  | ldFVx (x : Nibble)
  /-- row 33, LD B, Vx -/
  | ldBVx (x : Nibble)
  /-- row 34, LD [I], Vx -/
  | ldMemVx (x : Nibble)
  /-- row 35, LD Vx, [I] -/
  | ldVxMem (x : Nibble)
deriving DecidableEq, Repr

end Sys2Proof
end

