-- ==== Sys2Proof/Decode.lean ====
section
/-! DEFINITION. The decoder and, after it, the encoder (30_encoding.md R60 to R71): `decode` is written from the two-level
table of R63 to R68, `encode` from the bit patterns of R62, and `opcodeTable` is R62's match and mask columns as data. -/

namespace Sys2Proof

/-! ### Bytes and fields -/

/-- Two bytes combined big-endian: the byte at the lower address in bits 15:8 (20_memory.md R42). -/
def joinBytes (hi lo : Byte) : Word := hi ++ lo

/-- The two bytes of a word as RAM stores them, the first at the lower address (20_memory.md R42). -/
def wordBytes (op : Word) : Byte × Byte := (op.extractLsb' 8 8, op.extractLsb' 0 8)

/-- `p = op[15:12]`, the family selector (R61). -/
def fieldP (op : Word) : Nibble := op.extractLsb' 12 4
/-- `x = op[11:8]` (R61). -/
def fieldX (op : Word) : Nibble := op.extractLsb' 8 4
/-- `y = op[7:4]` (R61). -/
def fieldY (op : Word) : Nibble := op.extractLsb' 4 4
/-- `n = op[3:0]` (R61). -/
def fieldN (op : Word) : Nibble := op.extractLsb' 0 4
/-- `kk = op[7:0]` (R61). -/
def fieldKK (op : Word) : Byte := op.extractLsb' 0 8
/-- `nnn = op[11:0]` (R61). -/
def fieldNNN (op : Word) : Addr := op.extractLsb' 0 12

/-! ### Decoder -/

/-- Family 0 (R63): CLS and RET need the whole word; SYS takes every other word of the family (D10, D27). -/
def decodeFamily0 (op : Word) : Option Instr :=
  if op = 0x00E0#16 then some .cls
  else if op = 0x00EE#16 then some .ret
  else some (.sys (fieldNNN op))

/-- Family 8 (R65): `n` selects. -/
def decodeFamily8 (op : Word) : Option Instr :=
  let x := fieldX op
  let y := fieldY op
  match fieldN op with
  | 0x0#4 => some (.ldReg x y)
  | 0x1#4 => some (.orReg x y)
  | 0x2#4 => some (.andReg x y)
  | 0x3#4 => some (.xorReg x y)
  | 0x4#4 => some (.addReg x y)
  | 0x5#4 => some (.subReg x y)
  | 0x6#4 => some (.shr x y)
  | 0x7#4 => some (.subn x y)
  | 0xE#4 => some (.shl x y)
  | _ => none

/-- Family E (R66): `kk` selects. -/
def decodeFamilyE (op : Word) : Option Instr :=
  match fieldKK op with
  | 0x9E#8 => some (.skp (fieldX op))
  | 0xA1#8 => some (.sknp (fieldX op))
  | _ => none

/-- Family F (R67): `kk` selects. -/
def decodeFamilyF (op : Word) : Option Instr :=
  let x := fieldX op
  match fieldKK op with
  | 0x07#8 => some (.ldVxDT x)
  | 0x0A#8 => some (.ldVxK x)
  | 0x15#8 => some (.ldDTVx x)
  | 0x18#8 => some (.ldSTVx x)
  | 0x1E#8 => some (.addIVx x)
  | 0x29#8 => some (.ldFVx x)
  | 0x33#8 => some (.ldBVx x)
  | 0x55#8 => some (.ldMemVx x)
  | 0x65#8 => some (.ldVxMem x)
  | _ => none

/-- `decode(opcode: u16) -> Option<Instruction>` (R60): the primary nibble selects a family (R62); `none` is the decode
failure of R69. -/
def decode (op : Word) : Option Instr :=
  match fieldP op with
  | 0x0#4 => decodeFamily0 op
  | 0x1#4 => some (.jp (fieldNNN op))
  | 0x2#4 => some (.call (fieldNNN op))
  | 0x3#4 => some (.seImm (fieldX op) (fieldKK op))
  | 0x4#4 => some (.sneImm (fieldX op) (fieldKK op))
  | 0x5#4 => if fieldN op = 0#4 then some (.seReg (fieldX op) (fieldY op)) else none
  | 0x6#4 => some (.ldImm (fieldX op) (fieldKK op))
  | 0x7#4 => some (.addImm (fieldX op) (fieldKK op))
  | 0x8#4 => decodeFamily8 op
  | 0x9#4 => if fieldN op = 0#4 then some (.sneReg (fieldX op) (fieldY op)) else none
  | 0xA#4 => some (.ldI (fieldNNN op))
  | 0xB#4 => some (.jpV0 (fieldNNN op))
  | 0xC#4 => some (.rnd (fieldX op) (fieldKK op))
  | 0xD#4 => some (.drw (fieldX op) (fieldY op) (fieldN op))
  | 0xE#4 => decodeFamilyE op
  | _ => decodeFamilyF op          -- the one nibble left, 0xF

/-- Why a sequence of bytes is not read as an instruction. -/
inductive DecodeError where
  /-- fewer than the two bytes of a word -/
  | truncated
  /-- the word matches no row of R62 (R69) -/
  | decodeFailure (op : Word)
deriving DecidableEq, Repr

/-- The decoder on bytes: one word big-endian (R60), and the bytes after it. -/
def decodeBytes : List Byte → Except DecodeError (Instr × List Byte)
  | hi :: lo :: rest =>
    match decode (joinBytes hi lo) with
    | some i => .ok (i, rest)
    | none => .error (.decodeFailure (joinBytes hi lo))
  | _ => .error .truncated

/-- The word that the numbering of spec/opcode_table.json writes as the `nbits` low bits of `w`. -/
def tableWord (nbits w : Nat) : Word := BitVec.ofNat 16 (w % 2 ^ nbits)

/-- The instruction the decoder reads from the bytes of a table word. -/
def decodeTableWord (nbits w : Nat) : Option Instr :=
  let b := wordBytes (tableWord nbits w)
  match decodeBytes [b.1, b.2] with
  | .ok (i, _) => some i
  | .error _ => none

/-! ### Encoder -/

/-- The word `p ++ nnn`. -/
def wordPNNN (p : Nibble) (nnn : Addr) : Word := p ++ nnn
/-- The word `p ++ x ++ kk`. -/
def wordPXKK (p x : Nibble) (kk : Byte) : Word := p ++ x ++ kk
/-- The word `p ++ x ++ y ++ n`. -/
def wordPXYN (p x y n : Nibble) : Word := p ++ x ++ y ++ n

/-- The word of an instruction: the pattern column of R62, row by row. -/
def encode : Instr → Word
  | .cls          => 0x00E0#16
  | .ret          => 0x00EE#16
  | .sys nnn      => wordPNNN 0x0#4 nnn
  | .jp nnn       => wordPNNN 0x1#4 nnn
  | .call nnn     => wordPNNN 0x2#4 nnn
  | .seImm x kk   => wordPXKK 0x3#4 x kk
  | .sneImm x kk  => wordPXKK 0x4#4 x kk
  | .seReg x y    => wordPXYN 0x5#4 x y 0x0#4
  | .ldImm x kk   => wordPXKK 0x6#4 x kk
  | .addImm x kk  => wordPXKK 0x7#4 x kk
  | .ldReg x y    => wordPXYN 0x8#4 x y 0x0#4
  | .orReg x y    => wordPXYN 0x8#4 x y 0x1#4
  | .andReg x y   => wordPXYN 0x8#4 x y 0x2#4
  | .xorReg x y   => wordPXYN 0x8#4 x y 0x3#4
  | .addReg x y   => wordPXYN 0x8#4 x y 0x4#4
  | .subReg x y   => wordPXYN 0x8#4 x y 0x5#4
  | .shr x y      => wordPXYN 0x8#4 x y 0x6#4
  | .subn x y     => wordPXYN 0x8#4 x y 0x7#4
  | .shl x y      => wordPXYN 0x8#4 x y 0xE#4
  | .sneReg x y   => wordPXYN 0x9#4 x y 0x0#4
  | .ldI nnn      => wordPNNN 0xA#4 nnn
  | .jpV0 nnn     => wordPNNN 0xB#4 nnn
  | .rnd x kk     => wordPXKK 0xC#4 x kk
  | .drw x y n    => wordPXYN 0xD#4 x y n
  | .skp x        => wordPXKK 0xE#4 x 0x9E#8
  | .sknp x       => wordPXKK 0xE#4 x 0xA1#8
  | .ldVxDT x     => wordPXKK 0xF#4 x 0x07#8
  | .ldVxK x      => wordPXKK 0xF#4 x 0x0A#8
  | .ldDTVx x     => wordPXKK 0xF#4 x 0x15#8
  | .ldSTVx x     => wordPXKK 0xF#4 x 0x18#8
  | .addIVx x     => wordPXKK 0xF#4 x 0x1E#8
  | .ldFVx x      => wordPXKK 0xF#4 x 0x29#8
  | .ldBVx x      => wordPXKK 0xF#4 x 0x33#8
  | .ldMemVx x    => wordPXKK 0xF#4 x 0x55#8
  | .ldVxMem x    => wordPXKK 0xF#4 x 0x65#8

/-! ### The match and mask columns of R62 -/

/-- One row of R62: the word matches when its bits under `mask` are `pattern`, and it is none of `exclude` (row 3). -/
structure OpcodeRow where
  row     : Nat
  pattern : Word
  mask    : Word
  exclude : List Word
deriving DecidableEq, Repr

/-- A word matches a row. -/
def OpcodeRow.matchesWord (r : OpcodeRow) (op : Word) : Bool :=
  (op &&& r.mask) == r.pattern && !(r.exclude.contains op)

/-- Rows 1 to 10 of R62. -/
def opcodeRows1 : List OpcodeRow :=
  [⟨1, 0x00E0, 0xFFFF, []⟩, ⟨2, 0x00EE, 0xFFFF, []⟩, ⟨3, 0x0000, 0xF000, [0x00E0, 0x00EE]⟩,
   ⟨4, 0x1000, 0xF000, []⟩, ⟨5, 0x2000, 0xF000, []⟩, ⟨6, 0x3000, 0xF000, []⟩,
   ⟨7, 0x4000, 0xF000, []⟩, ⟨8, 0x5000, 0xF00F, []⟩, ⟨9, 0x6000, 0xF000, []⟩, ⟨10, 0x7000, 0xF000, []⟩]

/-- Rows 11 to 24 of R62. -/
def opcodeRows2 : List OpcodeRow :=
  [⟨11, 0x8000, 0xF00F, []⟩, ⟨12, 0x8001, 0xF00F, []⟩, ⟨13, 0x8002, 0xF00F, []⟩, ⟨14, 0x8003, 0xF00F, []⟩,
   ⟨15, 0x8004, 0xF00F, []⟩, ⟨16, 0x8005, 0xF00F, []⟩, ⟨17, 0x8006, 0xF00F, []⟩, ⟨18, 0x8007, 0xF00F, []⟩,
   ⟨19, 0x800E, 0xF00F, []⟩, ⟨20, 0x9000, 0xF00F, []⟩, ⟨21, 0xA000, 0xF000, []⟩, ⟨22, 0xB000, 0xF000, []⟩,
   ⟨23, 0xC000, 0xF000, []⟩, ⟨24, 0xD000, 0xF000, []⟩]

/-- Rows 25 to 35 of R62. -/
def opcodeRows3 : List OpcodeRow :=
  [⟨25, 0xE09E, 0xF0FF, []⟩, ⟨26, 0xE0A1, 0xF0FF, []⟩, ⟨27, 0xF007, 0xF0FF, []⟩, ⟨28, 0xF00A, 0xF0FF, []⟩,
   ⟨29, 0xF015, 0xF0FF, []⟩, ⟨30, 0xF018, 0xF0FF, []⟩, ⟨31, 0xF01E, 0xF0FF, []⟩, ⟨32, 0xF029, 0xF0FF, []⟩,
   ⟨33, 0xF033, 0xF0FF, []⟩, ⟨34, 0xF055, 0xF0FF, []⟩, ⟨35, 0xF065, 0xF0FF, []⟩]

/-- R62's table, all 35 rows in its order. -/
def opcodeTable : List OpcodeRow := opcodeRows1 ++ opcodeRows2 ++ opcodeRows3

/-- The row of R62 an instruction variant stands for. -/
def Instr.row : Instr → Nat
  | .cls => 1
  | .ret => 2
  | .sys _ => 3
  | .jp _ => 4
  | .call _ => 5
  | .seImm _ _ => 6
  | .sneImm _ _ => 7
  | .seReg _ _ => 8
  | .ldImm _ _ => 9
  | .addImm _ _ => 10
  | .ldReg _ _ => 11
  | .orReg _ _ => 12
  | .andReg _ _ => 13
  | .xorReg _ _ => 14
  | .addReg _ _ => 15
  | .subReg _ _ => 16
  | .shr _ _ => 17
  | .subn _ _ => 18
  | .shl _ _ => 19
  | .sneReg _ _ => 20
  | .ldI _ => 21
  | .jpV0 _ => 22
  | .rnd _ _ => 23
  | .drw _ _ _ => 24
  | .skp _ => 25
  | .sknp _ => 26
  | .ldVxDT _ => 27
  | .ldVxK _ => 28
  | .ldDTVx _ => 29
  | .ldSTVx _ => 30
  | .addIVx _ => 31
  | .ldFVx _ => 32
  | .ldBVx _ => 33
  | .ldMemVx _ => 34
  | .ldVxMem _ => 35

end Sys2Proof
end

