-- ==== Sys2Proof/Config.lean ====
section
/-! DEFINITION. The parameters of the machine (00_scope.md R6, 10_state.md R38): the sizes that shape State, and the
parameters a model takes as arguments, `UNIMPL_POLICY`, `FLAG_ORDER` and `FONT_DATA`. The remaining values of R6's table
(`RAM_SIZE`, `PROGRAM_START`, `FONT_BASE`) and R44's font stand in Machine/Parameters.lean. -/

namespace Sys2Proof

/-- What executing one of the seventeen decodable, unimplemented instructions does (44_unimplemented.md R115; D9). -/
inductive UnimplPolicy where
  /-- a silent no-op, the source's stated behaviour and the spec's default -/
  | nop
  /-- the fault Unimplemented -/
  | fault
deriving DecidableEq, Repr

/-- The order of the two writes of ADD Vx,Vy and SUB Vx,Vy (42_alu.md R104; D11, OPEN). -/
inductive FlagOrder where
  /-- `V[0xF] <- f` and then `V[x] <- res` -/
  | flagThenResult
  /-- `V[x] <- res` and then `V[0xF] <- f` -/
  | resultThenFlag
deriving DecidableEq, Repr, Inhabited

/-- The bytes of `FONT_DATA`: `FONT_GLYPHS` = 16 glyphs of 5 bytes (R6). -/
abbrev FontData := Vector Byte 80

/-- The parameters a model takes as arguments (10_state.md R38, 20_memory.md R44). -/
structure Params where
  unimplPolicy : UnimplPolicy
  flagOrder    : FlagOrder
  /-- "A model that reads font bytes must take `FONT_DATA` as a parameter" (20_memory.md R44; D3, U11) -/
  fontData     : FontData
deriving DecidableEq, Repr

namespace Config

/-- `NREGS` (R6). -/
abbrev nregs : Nat := 16
/-- `STACK_DEPTH` (R6). -/
abbrev stackDepth : Nat := 16
/-- `DISPLAY_W` (R6). -/
abbrev displayW : Nat := 64
/-- `DISPLAY_H` (R6). -/
abbrev displayH : Nat := 32
/-- `NKEYS` (R6). -/
abbrev nkeys : Nat := 16

/-- FREE VALUE (log entry 5). `FLAG_ORDER` is OPEN in the spec (D11): a constant with no body, so that nothing can be
proved from one choice. -/
opaque flagOrder : FlagOrder

end Config

end Sys2Proof
end

