-- ==== Sys2Proof/Machine/Parameters.lean ====
section
/-! DEFINITION. The values of 00_scope.md R6 that do not shape a type: `RAM_SIZE`, `PROGRAM_START`, `FONT_BASE`, and
the defaults of the parameters `FONT_DATA` and `UNIMPL_POLICY`. -/

namespace Sys2Proof.Machine

/-- `RAM_SIZE` (R6, 20_memory.md R40). -/
def ramSize : Nat := 4096

/-- `PROGRAM_START` (R6; D1, PRESUMED by the spec from general knowledge: log entry 8). -/
def programStart : Nat := 0x200

/-- `FONT_BASE` (R6; D2: log entry 9). -/
def fontBase : Nat := 0x000

/-- Glyphs 0 to 7 of `FONT_DATA` (20_memory.md R44; D3, PRESUMED by the spec from general knowledge: log entry 9). -/
def fontGlyphs0To7 : List Byte :=
  [0xF0, 0x90, 0x90, 0x90, 0xF0] ++ [0x20, 0x60, 0x20, 0x20, 0x70] ++
  [0xF0, 0x10, 0xF0, 0x80, 0xF0] ++ [0xF0, 0x10, 0xF0, 0x10, 0xF0] ++
  [0x90, 0x90, 0xF0, 0x10, 0x10] ++ [0xF0, 0x80, 0xF0, 0x10, 0xF0] ++
  [0xF0, 0x80, 0xF0, 0x90, 0xF0] ++ [0xF0, 0x10, 0x20, 0x40, 0x40]

/-- Glyphs 8 to F of `FONT_DATA` (20_memory.md R44). -/
def fontGlyphs8ToF : List Byte :=
  [0xF0, 0x90, 0xF0, 0x90, 0xF0] ++ [0xF0, 0x90, 0xF0, 0x10, 0xF0] ++
  [0xF0, 0x90, 0xF0, 0x90, 0x90] ++ [0xE0, 0x90, 0xE0, 0x90, 0xE0] ++
  [0xF0, 0x80, 0x80, 0x80, 0xF0] ++ [0xE0, 0x90, 0x90, 0x90, 0xE0] ++
  [0xF0, 0x80, 0xF0, 0x80, 0xF0] ++ [0xF0, 0x80, 0xF0, 0x80, 0x80]

/-- The 16 glyphs of 5 bytes of R44's table, the value 00_scope.md R6 gives the parameter `FONT_DATA`. -/
def fontData : FontData := ⟨(fontGlyphs0To7 ++ fontGlyphs8ToF).toArray, rfl⟩

/-- The bytes `load_rom` accepts at most, `RAM_SIZE - PROGRAM_START` (R7). -/
def romCapacity : Nat := ramSize - programStart

/-- The parameters at construction: `UNIMPL_POLICY` at its default `Nop` (R6, D9), `FLAG_ORDER` the free value (D11),
`FONT_DATA` R44's table (D3; log entries 4, 5 and 9). -/
def defaultParams : Params := { unimplPolicy := .nop, flagOrder := Config.flagOrder, fontData := fontData }

end Sys2Proof.Machine
end

