-- ==== Sys2Proof/Machine/Memory.lean ====
section
/-! DEFINITION. RAM (20_memory.md R40 to R44, R51) as a list of (address, byte) pairs in one canonical form: addresses
strictly rising and inside RAM, and no entry equal to what an unlisted address reads as. -/

namespace Sys2Proof.Machine

/-- What an unlisted address reads as: the contents after construction, the parameter `FONT_DATA` from `FONT_BASE` and 0
everywhere else (10_state.md R37, 20_memory.md R43, R44; D3, D4: log entries 9 and 10). -/
def resetByte (font : FontData) (a : Nat) : Byte :=
  if h : fontBase ≤ a ∧ a - fontBase < 80 then font[a - fontBase]'h.2 else 0

/-- RAM contents that differ from construction. -/
abbrev Memory := List Host.Cell

namespace Memory

/-- `MemRead(addr, 1)` (R51); every caller has checked `addr < RAM_SIZE`. -/
def read (font : FontData) : Memory → Nat → Byte
  | [], a => resetByte font a
  | (k, c) :: m, a => if a = k then c else read font m a

/-- `MemWrite(addr, 1, v)`, for an `addr < RAM_SIZE`; writing what an unlisted address reads as removes the entry. -/
def write (font : FontData) : Memory → Nat → Byte → Memory
  | [], a, b => if b = resetByte font a then [] else [(a, b)]
  | (k, c) :: m, a, b =>
    if a < k then if b = resetByte font a then (k, c) :: m else (a, b) :: (k, c) :: m
    else if a = k then if b = resetByte font a then m else (a, b) :: m
    else (k, c) :: write font m a b

/-- `MemWrite(addr, n, bytes)`: the bytes at consecutive addresses, the first at `addr` (00_scope.md R10). -/
def writeBytes (font : FontData) : Memory → Nat → List Byte → Memory
  | m, _, [] => m
  | m, a, b :: bs => writeBytes font (write font m a b) (a + 1) bs

/-- `MemRead(addr, n)`: the n bytes from `addr` upwards (00_scope.md R10). -/
def readBytes (font : FontData) (m : Memory) (a : Nat) : Nat → List Byte
  | 0 => []
  | n + 1 => read font m a :: readBytes font m (a + 1) n

/-- The canonical form. -/
abbrev wf (font : FontData) (m : Memory) : Prop :=
  m.Pairwise (fun c d => c.1 < d.1) ∧ ∀ c ∈ m, c.1 < ramSize ∧ c.2 ≠ resetByte font c.1

end Memory

end Sys2Proof.Machine
end

