-- ==== Sys2Proof/Machine/State.lean ====
section
/-! DEFINITION. The state of the machine (10_state.md R20 to R38), the ways it stops, and its state after construction. -/

namespace Sys2Proof.Machine

/-- The fault record held in `Halted(f)`, one constructor per kind of 60_exceptions.md R136 with the fields of R154. `addr`
is the address of the instruction. -/
inductive FaultRecord where
  /-- code 1, raised by execute of a word that does not decode (R137) -/
  | decodeFailure (opcode addr : Word)
  /-- code 2, raised by RET with `SP = 0` (R138) -/
  | stackUnderflow (opcode addr : Word)
  /-- code 3, raised by CALL with `SP = STACK_DEPTH` (R139; D8) -/
  | stackOverflow (opcode addr : Word)
  /-- code 4, raised by fetch when `pc + 1 >= RAM_SIZE` (R140; D6); no opcode was read -/
  | fetchOutOfBounds (addr : Word)
  /-- code 5, raised by DRW when its n sprite bytes do not all lie in RAM (R141; D7) -/
  | spriteOutOfBounds (opcode addr : Word) (i : Word) (n : Nibble)
  /-- code 6, raised by the seventeen unimplemented variants under `UNIMPL_POLICY = Fault` (R142; D9) -/
  | unimplemented (opcode addr : Word)
deriving DecidableEq, Repr

/-- The session status (10_state.md R34; D14). -/
inductive Status where
  | running
  | halted (f : FaultRecord)
deriving DecidableEq, Repr

/-- `DISP`, row-major: row y of the 32, with pixel (x, y) in bit x of that row (10_state.md R31). -/
abbrev Display := Vector (BitVec 64) 32

/-- The whole machine. -/
structure State where
  /-- general registers V0 to VF (R20) -/
  v       : Vector Byte 16
  /-- index register I (R26) -/
  i       : Word
  /-- program counter (R23) -/
  pc      : Word
  /-- stack pointer: the number of occupied slots, 0 to 16 (R27) -/
  sp      : Fin 17
  /-- call stack slots (R27) -/
  stack   : Vector Word 16
  /-- delay timer (R29) -/
  dt      : Byte
  /-- sound timer (R29) -/
  st      : Byte
  /-- RAM (R30) -/
  mem     : Memory
  /-- display buffer (R31) -/
  disp    : Display
  /-- keypad, true is pressed (R32) -/
  keys    : Vector Bool 16
  /-- session status (R34) -/
  status  : Status
  /-- the session's first `step()` has been called (implied by R50, R146, D28; DEDUCED, log entry 3) -/
  stepped : Bool
  /-- what the last `step()` returned, none before the first and after a fault (R33, R80; the model's own field, DESIGN
  CHOICE, log entry 2) -/
  redraw  : Option Bool
  /-- the machine's parameters (R38, 20_memory.md R44; the model's own field, DESIGN CHOICE, log entry 4) -/
  params  : Params
deriving DecidableEq, Repr

/-- Why `step` does not move. -/
inductive Fault where
  /-- Raised by `step` alone, when the session is already halted: "a halted core takes no further step" (40_cycle.md R84,
  U15). A stuck state. Safe: nothing follows it. -/
  | sessionHalted (f : FaultRecord)
deriving DecidableEq, Repr

/-- Why an operation is not performed. No meaning and no step answers with one. -/
inductive Refusal where
  /-- An arm of `exec` whose instruction has no meaning yet; raised by no arm now. Safe. -/
  | notModelled (mnemonic : String)
  /-- Raised by the driver's `load_rom` after the first step: no such move (R50, D28, U16). Safe. -/
  | loadRomAfterFirstStep
  /-- Raised by the driver's `SetKey` for a key index above 15 (R49, D23, U14). Safe. -/
  | keyIndexOutOfRange (k : Nat)
  /-- Raised by the driver's `SetKey` and `tick_timers` on a halted session: allowed only while Running (R146). Safe. -/
  | sessionNotRunning
  /-- Raised by the driver's `GetPixel` outside the 64 x 32 grid (R47, R146). Safe. -/
  | pixelOutOfRange (x y : Nat)
deriving DecidableEq, Repr

/-- Construction with given parameters (70_reset_and_hazards.md R155, 10_state.md R37). Every value but `pc`'s name is the
spec's own choice (D1 to D5: log entries 7 to 10). -/
def State.construct (p : Params) : State where
  v       := Vector.replicate 16 0
  i       := 0
  pc      := BitVec.ofNat 16 programStart
  sp      := 0
  stack   := Vector.replicate 16 0
  dt      := 0
  st      := 0
  mem     := []
  disp    := Vector.replicate 32 0
  keys    := Vector.replicate 16 false
  status  := .running
  stepped := false
  redraw  := none
  params  := p

/-- The machine right after construction, its only reset (R155). -/
def State.reset : State := State.construct defaultParams

end Sys2Proof.Machine
end

