-- ==== Sys2Proof/Machine/Ops.lean ====
section
/-! DEFINITION. The named operations over registers, stack, memory, display, keypad and status that the meanings share
(00_scope.md R10, 20_memory.md R46 to R51), taking a fault (60_exceptions.md R135), and fetch (40_cycle.md R75, R76). -/

namespace Sys2Proof.Machine

/-- What `exec` and `step` answer. -/
abbrev Result := Host.Outcome State Fault Refusal

/-! ### Registers -/

/-- `V[x]`. -/
def State.readV (s : State) (x : Nibble) : Byte := s.v[x.toNat]'x.isLt

/-- `V[x] <- b`. -/
def State.writeV (s : State) (x : Nibble) (b : Byte) : State := { s with v := s.v.set x.toNat b x.isLt }

/-- VF, the flags register (10_state.md R21). -/
def vf : Nibble := 0xF

/-- `I <- w`. -/
def State.setI (s : State) (w : Word) : State := { s with i := w }

/-- `pc <- w`. -/
def State.setPc (s : State) (w : Word) : State := { s with pc := w }

/-- `pc <- pc +_16 2`: what fetch and a taken skip do (10_state.md R24, R25). -/
def State.advancePc (s : State) : State := s.setPc (s.pc + 2)

/-- The address the executing instruction was fetched from, `a = pc -_16 2` (40_cycle.md R77). -/
def instrAddr (s : State) : Word := s.pc - 2

/-! ### Call stack -/

/-- Push (10_state.md R27, D24): `STACK[SP] <- w; SP <- SP + 1`; none when all slots are occupied. -/
def State.push (s : State) (w : Word) : Option State :=
  if h : s.sp.val < Config.stackDepth then
    some { s with stack := s.stack.set s.sp.val w h, sp := ⟨s.sp.val + 1, Nat.succ_lt_succ h⟩ }
  else none

/-- Pop (10_state.md R27, D24): `SP <- SP - 1`, and the value of `STACK[SP]`; the slot keeps its value; none when no slot is
occupied. -/
def State.pop (s : State) : Option (Word × State) :=
  if h : 0 < s.sp.val then
    some (s.stack[s.sp.val - 1]'(by have := s.sp.isLt; omega),
      { s with sp := ⟨s.sp.val - 1, by have := s.sp.isLt; omega⟩ })
  else none

/-! ### RAM -/

/-- `MemRead(a, 1)` (20_memory.md R51). -/
def State.readByte (s : State) (a : Nat) : Byte := Memory.read s.params.fontData s.mem a

/-- A word at two consecutive addresses, big-endian (20_memory.md R42). -/
def State.readWord (s : State) (a : Nat) : Word := joinBytes (s.readByte a) (s.readByte (a + 1))

/-- A word stored at two consecutive addresses, big-endian. -/
def State.storeWord (s : State) (a : Nat) (w : Word) : State :=
  { s with mem := Memory.writeBytes s.params.fontData s.mem a [(wordBytes w).1, (wordBytes w).2] }

/-! ### Display and keypad -/

/-- One pixel of a display, `DISP[y * 64 + x]`; every caller has checked `x < 64` and `y < 32` (20_memory.md R47). -/
def Display.pixel (d : Display) (x y : Nat) : Bool :=
  if h : y < 32 then (d[y]'h).getLsbD x else false

/-- `WritePixel(x, y, v)` (20_memory.md R46): XORs `v` into the pixel; true iff the pixel was 1 before and 0 after. -/
def Display.writePixel (d : Display) (x y : Nat) (b : Bool) : Display × Bool :=
  let old := Display.pixel d x y
  if h : y < 32 then
    (d.set y (d[y]'h ^^^ (if b then BitVec.twoPow 64 x else 0)) h, old && !(old ^^ b))
  else (d, false)

/-- `ClearDisplay()` (20_memory.md R48). -/
def Display.cleared : Display := Vector.replicate 32 0

/-- The state with another display buffer. -/
def State.setDisp (s : State) (d : Display) : State := { s with disp := d }

/-- `KeyPressed(k)` (20_memory.md R49); no instruction calls it (10_state.md R32). -/
def State.keyPressed (s : State) (k : Nat) (h : k < Config.nkeys) : Bool := s.keys[k]'h

/-- `SetKey(k, b)` (20_memory.md R49). -/
def State.writeKey (s : State) (k : Nat) (b : Bool) (h : k < Config.nkeys) : State := { s with keys := s.keys.set k b h }

/-! ### Completing, and taking a fault -/

/-- The instruction completes and execute returns `redraw` (40_cycle.md R77, R82). -/
def complete (redraw : Bool) (s : State) : Result := .next { s with redraw := some redraw }

/-- `raise Fault(kind, info)` (60_exceptions.md R135): `status <- Halted(record)` and nothing else. No register changes, no
state is saved elsewhere, control goes nowhere, and the step returns no redraw value (40_cycle.md R80). There is no return
from it (R145). -/
def raiseFault (f : FaultRecord) (s : State) : State := { s with status := .halted f, redraw := none }

/-- The step whose execute raises `f` (log entry 1: the fault is taken, the machine's next state is the halted one). -/
def trap (f : FaultRecord) (s : State) : Result := .next (raiseFault f s)

/-- `code(kind)` (60_exceptions.md R136, D29). -/
def FaultRecord.code : FaultRecord → Nat
  | .decodeFailure _ _ => 1
  | .stackUnderflow _ _ => 2
  | .stackOverflow _ _ => 3
  | .fetchOutOfBounds _ => 4
  | .spriteOutOfBounds _ _ _ _ => 5
  | .unimplemented _ _ => 6

/-- The `addr` field of a record (R154). -/
def FaultRecord.addr : FaultRecord → Word
  | .decodeFailure _ a => a
  | .stackUnderflow _ a => a
  | .stackOverflow _ a => a
  | .fetchOutOfBounds a => a
  | .spriteOutOfBounds _ a _ _ => a
  | .unimplemented _ a => a

/-- The `opcode` field of a record, present for every kind except FetchOutOfBounds (R154). -/
def FaultRecord.opcode : FaultRecord → Option Word
  | .decodeFailure op _ => some op
  | .stackUnderflow op _ => some op
  | .stackOverflow op _ => some op
  | .fetchOutOfBounds _ => none
  | .spriteOutOfBounds op _ _ _ => some op
  | .unimplemented op _ => some op

/-- The `I` and `n` fields of a record, present for SpriteOutOfBounds only (R154). -/
def FaultRecord.sprite : FaultRecord → Option (Word × Nibble)
  | .decodeFailure _ _ => none
  | .stackUnderflow _ _ => none
  | .stackOverflow _ _ => none
  | .fetchOutOfBounds _ => none
  | .spriteOutOfBounds _ _ i n => some (i, n)
  | .unimplemented _ _ => none

/-! ### Fetch -/

/-- `check_fetch_bounds` (40_cycle.md R76, D6): the two bytes at `pc` lie in RAM. -/
def fetchInBounds (pc : Word) : Bool := decide (pc.toNat + 1 < ramSize)

/-- `fetch` (40_cycle.md R75): the word at `pc` and the state with `pc` advanced by 2, or the fetch fault with nothing
changed. -/
def fetch (s : State) : Except FaultRecord (Word × State) :=
  if fetchInBounds s.pc then .ok (s.readWord s.pc.toNat, s.advancePc)
  else .error (.fetchOutOfBounds s.pc)

/-- The session's first step has been called (20_memory.md R50, D28; log entry 3). -/
def beginStep (s : State) : State := { s with stepped := true }

/-- The decode failure of execute (40_cycle.md R78): the address is the one the word was fetched from, and `pc` stays where
fetch left it. -/
def failDecode (op : Word) (s : State) : Result := trap (.decodeFailure op (instrAddr s)) s

end Sys2Proof.Machine
end

