-- ==== Sys2Proof/Machine/Operands.lean ====
section
/-! DEFINITION. How operands are formed (30_encoding.md R71, 43_index_display.md R107 to R110). A register operand is
`State.readV`; an immediate `kk` is used as is. -/

namespace Sys2Proof.Machine

/-- `zext_16(nnn)`: a 12-bit address zero-extended (00_scope.md R9, R71). -/
def zext16 (nnn : Addr) : Word := nnn.setWidth 16

/-- The n sprite bytes at I do not all lie in RAM: `n > 0 and I + n - 1 >= RAM_SIZE`, the sum exact (R110, D7). -/
def spriteOutOfBounds (i : Word) (n : Nibble) : Bool :=
  decide (0 < n.toNat ∧ ramSize ≤ i.toNat + n.toNat - 1)

/-- `rows = MemRead(I, n)` (R107). -/
def spriteRows (s : State) (n : Nibble) : List Byte := Memory.readBytes s.params.fontData s.mem s.i.toNat n.toNat

/-- The sprite's origin column, `vx mod DISPLAY_W` (R108). -/
def originX (vx : Byte) : Nat := vx.toNat % Config.displayW

/-- The sprite's origin row, `vy mod DISPLAY_H` (R108). -/
def originY (vy : Byte) : Nat := vy.toNat % Config.displayH

end Sys2Proof.Machine
end

