-- ==== Sys2Proof/Machine/Flags.lean ====
section
/-! DEFINITION. Every flag computation (42_alu.md R101, R102, R104; 43_index_display.md R107): the flags register VF gets a
byte that is 1 or 0. -/

namespace Sys2Proof.Machine

/-- A flag's byte. -/
def flagByte (b : Bool) : Byte := if b then 1 else 0

/-- The unwrapped sum of two registers, 0 to 510 (R101). -/
def exactSum (vx vy : Byte) : Nat := vx.toNat + vy.toNat

/-- The carry of ADD Vx,Vy, from the unwrapped sum (R101). -/
def carryFlag (vx vy : Byte) : Byte := flagByte (decide (255 < exactSum vx vy))

/-- The no-borrow flag of SUB Vx,Vy (R102). -/
def noBorrowFlag (vx vy : Byte) : Byte := flagByte (decide (vy.toNat ≤ vx.toNat))

/-- Of the two writes that fall on one register, the later one (R104). -/
def laterWrite (order : FlagOrder) (res f : Byte) : Byte :=
  match order with
  | .flagThenResult => res
  | .resultThenFlag => f

/-- `write_result_and_flag(x, res, f)` (R104). For `x = 0xF` both writes fall on VF and the later one stands; for any other
x their order cannot be seen. Laws/Flags.lean proves this equal to R104's two assignments in either order. -/
def State.writeResultAndFlag (s : State) (x : Nibble) (res f : Byte) : State :=
  if x = vf then s.writeV vf (laterWrite s.params.flagOrder res f)
  else (s.writeV x res).writeV vf f

end Sys2Proof.Machine
end

