-- ==== Sys2Proof/Machine/Alu.lean ====
section
/-! DEFINITION. Register loads and arithmetic (42_alu.md). None of these changes `pc`, faults or asks for a redraw. -/

namespace Sys2Proof.Machine

/-- LD Vx, kk (R95). -/
def execLdImm (x : Nibble) (kk : Byte) (s : State) : Result := complete false (s.writeV x kk)

/-- ADD Vx, kk (R96): wraps, no flag. -/
def execAddImm (x : Nibble) (kk : Byte) (s : State) : Result := complete false (s.writeV x (s.readV x + kk))

/-- LD Vx, Vy (R97). -/
def execLdReg (x y : Nibble) (s : State) : Result := complete false (s.writeV x (s.readV y))

/-- OR Vx, Vy (R98). -/
def execOrReg (x y : Nibble) (s : State) : Result := complete false (s.writeV x (s.readV x ||| s.readV y))

/-- AND Vx, Vy (R99). -/
def execAndReg (x y : Nibble) (s : State) : Result := complete false (s.writeV x (s.readV x &&& s.readV y))

/-- XOR Vx, Vy (R100). -/
def execXorReg (x y : Nibble) (s : State) : Result := complete false (s.writeV x (s.readV x ^^^ s.readV y))

/-- ADD Vx, Vy (R101): both operands are read before any write. -/
def execAddReg (x y : Nibble) (s : State) : Result :=
  let vx := s.readV x
  let vy := s.readV y
  complete false (s.writeResultAndFlag x (BitVec.ofNat 8 (exactSum vx vy)) (carryFlag vx vy))

/-- SUB Vx, Vy (R102): both operands are read before any write. -/
def execSubReg (x y : Nibble) (s : State) : Result :=
  let vx := s.readV x
  let vy := s.readV y
  complete false (s.writeResultAndFlag x (vx - vy) (noBorrowFlag vx vy))

end Sys2Proof.Machine
end

