-- ==== Sys2Proof/Machine/ControlFlow.lean ====
section
/-! DEFINITION. Return, jump, call and skips (41_control_flow.md). Each meaning is the execute phase: on entry `pc` holds the
instruction's address + 2 (40_cycle.md R75). -/

namespace Sys2Proof.Machine

/-- Shared by the four skips: `if cond: pc <- pc +_16 2` (R88 to R91); redraw false. -/
def skipIf (cond : Bool) (s : State) : Result := complete false (if cond then s.advancePc else s)

/-- RET (R85). -/
def execRet (s : State) : Result :=
  match s.pop with
  | some (target, s') => complete false (s'.setPc target)
  | none => trap (.stackUnderflow (encode .ret) (instrAddr s)) s

/-- JP nnn (R86). -/
def execJp (nnn : Addr) (s : State) : Result := complete false (s.setPc (zext16 nnn))

/-- CALL nnn (R87): pushes the post-fetch `pc` (C2), then jumps. -/
def execCall (nnn : Addr) (s : State) : Result :=
  match s.push s.pc with
  | some s' => complete false (s'.setPc (zext16 nnn))
  | none => trap (.stackOverflow (encode (.call nnn)) (instrAddr s)) s

/-- SE Vx, kk (R88). -/
def execSeImm (x : Nibble) (kk : Byte) (s : State) : Result := skipIf (s.readV x == kk) s

/-- SNE Vx, kk (R89). -/
def execSneImm (x : Nibble) (kk : Byte) (s : State) : Result := skipIf (s.readV x != kk) s

/-- SE Vx, Vy (R90). -/
def execSeReg (x y : Nibble) (s : State) : Result := skipIf (s.readV x == s.readV y) s

/-- SNE Vx, Vy (R91). -/
def execSneReg (x y : Nibble) (s : State) : Result := skipIf (s.readV x != s.readV y) s

end Sys2Proof.Machine
end

