-- ==== Sys2Proof/Machine/Compositor.lean ====
section
/-! DEFINITION. The sprite XOR compositor with collision detection (43_index_display.md R108, R109). -/

namespace Sys2Proof.Machine

/-- A display and the collision seen so far. -/
abbrev Canvas := Display × Bool

/-- One column of one row (R108): a column past the right edge is skipped, a clear bit writes nothing, a set bit is plotted
through `WritePixel` and a hit is remembered. -/
def plotColumn (xx yy : Nat) (bit : Bool) (acc : Canvas) : Canvas :=
  if xx < Config.displayW && bit then
    let (d, hit) := Display.writePixel acc.1 xx yy true
    (d, acc.2 || hit)
  else acc

/-- The eight columns of one row at display row yy; bit 7 is the leftmost pixel (R109, D16). -/
def plotRow (x0 yy : Nat) (row : Byte) (acc : Canvas) : Canvas :=
  (List.range 8).foldl (fun acc c => plotColumn (x0 + c) yy (row.getLsbD (7 - c)) acc) acc

/-- The rows from display row yy downwards; a row past the bottom edge is skipped (R108). -/
def plotRows (x0 : Nat) : Nat → List Byte → Canvas → Canvas
  | _, [], acc => acc
  | yy, row :: rows, acc =>
    plotRows x0 (yy + 1) rows (if yy < Config.displayH then plotRow x0 yy row acc else acc)

/-- `composite(vx, vy, rows)` (R108): the display after the draw and the collision result. -/
def composite (vx vy : Byte) (rows : List Byte) (d : Display) : Canvas :=
  plotRows (originX vx) (originY vy) rows (d, false)

end Sys2Proof.Machine
end

