-- ==== Sys2Proof/Machine/IndexDisplay.lean ====
section
/-! DEFINITION. Index load, display clear and sprite draw (43_index_display.md). None of these changes `pc`. -/

namespace Sys2Proof.Machine

/-- LD I, nnn (R105). -/
def execLdI (nnn : Addr) (s : State) : Result := complete false (s.setI (zext16 nnn))

/-- CLS (R106). -/
def execCls (s : State) : Result := complete true (s.setDisp Display.cleared)

/-- DRW Vx, Vy, n (R107): the bounds fault comes before any change (R110), and the origin is read before VF is cleared
(D12). -/
def execDrw (x y n : Nibble) (s : State) : Result :=
  if spriteOutOfBounds s.i n then
    trap (.spriteOutOfBounds (encode (.drw x y n)) (instrAddr s) s.i n) s
  else
    let (d, coll) := composite (s.readV x) (s.readV y) (spriteRows s n) s.disp
    let cleared := s.writeV vf 0
    complete true ((if coll then cleared.writeV vf 1 else cleared).setDisp d)

end Sys2Proof.Machine
end

