-- ==== Sys2Proof/Machine/Unimplemented.lean ====
section
/-! DEFINITION. The seventeen instructions that decode and that the executor gives no effect (44_unimplemented.md). Their
conventional CHIP-8 meanings are not this core's behaviour and are not modelled (R115). -/

namespace Sys2Proof.Machine

/-- `unimplemented(op)` (R115, D9): under `Nop` nothing changes and redraw is false; under `Fault` the fault Unimplemented. -/
def unimplemented (op : Word) (s : State) : Result :=
  match s.params.unimplPolicy with
  | .nop => complete false s
  | .fault => trap (.unimplemented op (instrAddr s)) s

/-- SYS nnn (R116). -/
def execSys (nnn : Addr) (s : State) : Result := unimplemented (encode (.sys nnn)) s

/-- SHR Vx, Vy (R117, R118). -/
def execShr (x y : Nibble) (s : State) : Result := unimplemented (encode (.shr x y)) s

/-- SUBN Vx, Vy (R119). -/
def execSubn (x y : Nibble) (s : State) : Result := unimplemented (encode (.subn x y)) s

/-- SHL Vx, Vy (R120, R118). -/
def execShl (x y : Nibble) (s : State) : Result := unimplemented (encode (.shl x y)) s

/-- JP V0, nnn (R121). -/
def execJpV0 (nnn : Addr) (s : State) : Result := unimplemented (encode (.jpV0 nnn)) s

/-- RND Vx, kk (R122). -/
def execRnd (x : Nibble) (kk : Byte) (s : State) : Result := unimplemented (encode (.rnd x kk)) s

/-- SKP Vx (R123). -/
def execSkp (x : Nibble) (s : State) : Result := unimplemented (encode (.skp x)) s

/-- SKNP Vx (R124). -/
def execSknp (x : Nibble) (s : State) : Result := unimplemented (encode (.sknp x)) s

/-- LD Vx, DT (R125). -/
def execLdVxDT (x : Nibble) (s : State) : Result := unimplemented (encode (.ldVxDT x)) s

/-- LD Vx, K (R126). -/
def execLdVxK (x : Nibble) (s : State) : Result := unimplemented (encode (.ldVxK x)) s

/-- LD DT, Vx (R127). -/
def execLdDTVx (x : Nibble) (s : State) : Result := unimplemented (encode (.ldDTVx x)) s

/-- LD ST, Vx (R128). -/
def execLdSTVx (x : Nibble) (s : State) : Result := unimplemented (encode (.ldSTVx x)) s

/-- ADD I, Vx (R129). -/
def execAddIVx (x : Nibble) (s : State) : Result := unimplemented (encode (.addIVx x)) s

/-- LD F, Vx (R130). -/
def execLdFVx (x : Nibble) (s : State) : Result := unimplemented (encode (.ldFVx x)) s

/-- LD B, Vx (R131). -/
def execLdBVx (x : Nibble) (s : State) : Result := unimplemented (encode (.ldBVx x)) s

/-- LD [I], Vx (R132). -/
def execLdMemVx (x : Nibble) (s : State) : Result := unimplemented (encode (.ldMemVx x)) s

/-- LD Vx, [I] (R133). -/
def execLdVxMem (x : Nibble) (s : State) : Result := unimplemented (encode (.ldVxMem x)) s

end Sys2Proof.Machine
end

