-- ==== Sys2Proof/Machine/Step.lean ====
section
/-! DEFINITION. One step of the core (40_cycle.md R80): fetch, decode, execute. -/

namespace Sys2Proof.Machine

/-- One step, on a running session (R80): fetch may fault (R76), the word may not decode (R78), otherwise the decoded
instruction runs. A halted session has no move (R84). -/
def step (s : State) : Host.Outcome State Fault Refusal :=
  match s.status with
  | .halted f => .fault (.sessionHalted f)
  | .running =>
    match fetch (beginStep s) with
    | .error f => trap f (beginStep s)
    | .ok (op, s') =>
      match decode op with
      | none => failDecode op s'
      | some i => exec i s'

/-- `s` with a table word stored where `step` fetches next, and what that fetch needs: a running session, and a `pc` whose two
bytes lie in RAM (`PROGRAM_START` where `s`'s do not). Stands for `load_rom` (log entry 6). -/
def State.withFetchWord (s : State) (nbits w : Nat) : State :=
  let a := if fetchInBounds s.pc then s.pc else BitVec.ofNat 16 programStart
  { (s.storeWord a.toNat (tableWord nbits w)) with pc := a, status := .running }

end Sys2Proof.Machine
end

