-- ==== Sys2Proof/Machine/Driver.lean ====
section
/-! DEFINITION. The driver's operations (60_exceptions.md R146): each runs whole, between steps, and the driver has no other
way to change state (D18). Construction is `State.construct`. -/

namespace Sys2Proof.Machine

/-- The driver's operations after construction. -/
inductive DriverOp where
  | loadRom (bytes : List Byte)
  | step
  | tickTimers
  | setKey (k : Nat) (b : Bool)
  | getPixel (x y : Nat)
  | readState
deriving DecidableEq, Repr

/-- What an operation returns to the driver. -/
inductive Reply where
  /-- nothing: `tick_timers`, `SetKey` -/
  | unit
  /-- `load_rom` succeeded -/
  | romOk
  /-- `load_rom` failed with RomTooLarge: a recoverable error, not a fault (R147) -/
  | romTooLarge
  /-- `step` returned this redraw value, or none when it faulted -/
  | redraw (r : Option Bool)
  /-- `GetPixel` -/
  | pixel (b : Bool)
  /-- read state -/
  | state (s : State)
deriving DecidableEq, Repr

/-- A driver operation's outcome: the next state and the reply. -/
abbrev DriverResult := Host.Outcome (State × Reply) Fault Refusal

/-- The bytes copied into RAM from `PROGRAM_START` (20_memory.md R50). -/
def copyRom (bytes : List Byte) (s : State) : State :=
  { s with mem := Memory.writeBytes s.params.fontData s.mem programStart bytes }

/-- `load_rom(bytes)` (20_memory.md R50, R147): all or nothing, and only before the first step (D28). -/
def loadRom (bytes : List Byte) (s : State) : DriverResult :=
  if s.stepped then .refused .loadRomAfterFirstStep
  else if romCapacity < bytes.length then .next (s, .romTooLarge)
  else .next (copyRom bytes s, .romOk)

/-- One timer's decrement, floor 0 (60_exceptions.md R148). -/
def decrementTimer (t : Byte) : Byte := if 0 < t.toNat then t - 1 else t

/-- `tick_timers()` (60_exceptions.md R148), while Running (R146). -/
def tickTimers (s : State) : DriverResult :=
  match s.status with
  | .running => .next ({ s with dt := decrementTimer s.dt, st := decrementTimer s.st }, .unit)
  | .halted _ => .refused .sessionNotRunning

/-- `SetKey(k, b)` (20_memory.md R49), while Running (R146), k in 0..15 (D23). -/
def setKey (k : Nat) (b : Bool) (s : State) : DriverResult :=
  match s.status with
  | .running => if h : k < Config.nkeys then .next (s.writeKey k b h, .unit) else .refused (.keyIndexOutOfRange k)
  | .halted _ => .refused .sessionNotRunning

/-- `GetPixel(x, y)` (20_memory.md R47), at any time, inside the grid (R146). -/
def getPixel (x y : Nat) (s : State) : DriverResult :=
  if x < Config.displayW ∧ y < Config.displayH then .next (s, .pixel (Display.pixel s.disp x y))
  else .refused (.pixelOutOfRange x y)

/-- `step()` (40_cycle.md R80): returns redraw, or halts. -/
def driveStep (s : State) : DriverResult :=
  match step s with
  | .next s' => .next (s', .redraw s'.redraw)
  | .fault f => .fault f
  | .refused r => .refused r

/-- One driver operation. -/
def drive (op : DriverOp) (s : State) : DriverResult :=
  match op with
  | .loadRom bytes => loadRom bytes s
  | .step => driveStep s
  | .tickTimers => tickTimers s
  | .setKey k b => setKey k b s
  | .getPixel x y => getPixel x y s
  | .readState => .next (s, .state s)

/-- A sequence of driver operations, stopping at the first that has no move. -/
def session : List DriverOp → State → Result
  | [], s => .next s
  | op :: ops, s =>
    match drive op s with
    | .next (s', _) => session ops s'
    | .fault f => .fault f
    | .refused r => .refused r

end Sys2Proof.Machine
end

