-- ==== Sys2Proof/Safety.lean ====
section
/-! DEFINITION. What counts as a safe run, and the words the statements use: the invariant of the reachable states, the
states a session reaches, and the frame predicates (what an operation leaves unchanged). -/

namespace Sys2Proof.Machine

/-! ### Invariant -/

/-- What holds in every state a session reaches (10_state.md R25, R26, R28, R29, 20_memory.md R43): RAM in its canonical form
with the font as construction left it, `pc` at most 0x1002, `I` at most 0xFFF, every stack slot at most 0x1000, both timers 0.
That `SP` never exceeds the stack depth is the type of the field. -/
structure State.Inv (s : State) : Prop where
  memWf   : Memory.wf s.params.fontData s.mem
  font    : ∀ a, a < 80 → s.readByte a = resetByte s.params.fontData a
  pcBound : s.pc.toNat ≤ 0x1002
  iBound  : s.i.toNat ≤ 0xFFF
  slots   : ∀ j : Fin 16, s.stack[j].toNat ≤ 0x1000
  dtZero  : s.dt = 0
  stZero  : s.st = 0

/-- The states of a session: from construction with any parameters, by the driver's operations (60_exceptions.md R146). -/
def Reachable (s : State) : Prop := ∃ p ops, session ops (State.construct p) = .next s

/-! ### Frames -/

/-- Every general register outside the list keeps its value. -/
def KeepsRegsExcept (ks : List Nibble) (s t : State) : Prop := ∀ k : Nibble, k ∉ ks → t.readV k = s.readV k

/-- The call stack is unchanged, the slots above `SP` included. -/
def KeepsStack (s t : State) : Prop := t.sp = s.sp ∧ t.stack = s.stack

/-- Every byte of RAM reads as before. -/
def KeepsMemory (s t : State) : Prop := ∀ a : Nat, t.readByte a = s.readByte a

/-- Every pixel reads as before. -/
def KeepsDisplay (s t : State) : Prop :=
  ∀ x y : Nat, x < 64 → y < 32 → Display.pixel t.disp x y = Display.pixel s.disp x y

/-- What no completed instruction touches: the timers, the keypad, the session status, the parameters, the first-step mark
and every byte of RAM. -/
def KeepsRest (s t : State) : Prop :=
  t.dt = s.dt ∧ t.st = s.st ∧ t.keys = s.keys ∧ t.status = s.status ∧ t.stepped = s.stepped ∧ t.params = s.params ∧
    KeepsMemory s t

/-- What an instruction that only writes general registers keeps: all but the registers (and the redraw value execute
returns). -/
def KeepsOutsideRegs (s t : State) : Prop :=
  t.i = s.i ∧ t.pc = s.pc ∧ KeepsStack s t ∧ KeepsDisplay s t ∧ KeepsRest s t

/-- What a jump, a call, a return or a skip keeps: all but `pc`, the call stack and the redraw value. -/
def KeepsOutsideControl (s t : State) : Prop :=
  KeepsRegsExcept [] s t ∧ t.i = s.i ∧ KeepsDisplay s t ∧ KeepsRest s t

/-- The state fetch leaves for execute when it does not fault (40_cycle.md R75, R80): `pc` past the word, the session's first
step taken, everything else as it was. -/
def afterFetch (s : State) : State := { s with pc := s.pc + 2, stepped := true }

/-- The word at the program counter (20_memory.md R42). -/
def nextWord (s : State) : Word := s.readByte s.pc.toNat ++ s.readByte (s.pc.toNat + 1)

/-- The machine's visible result with everything the driver's inputs can set left out: what R164 says does not depend on
`SetKey` and `tick_timers`. -/
def SameBesidesInputs (s t : State) : Prop :=
  t.v = s.v ∧ t.i = s.i ∧ t.pc = s.pc ∧ t.sp = s.sp ∧ t.stack = s.stack ∧ t.mem = s.mem ∧ t.disp = s.disp ∧
    t.status = s.status ∧ t.stepped = s.stepped ∧ t.redraw = s.redraw ∧ t.params = s.params

/-- A driver operation that only sets the machine's inputs. -/
def DriverOp.isInput : DriverOp → Bool
  | .setKey _ _ => true
  | .tickTimers => true
  | .loadRom _ => false
  | .step => false
  | .getPixel _ _ => false
  | .readState => false

/-- The rows of 30_encoding.md R62 whose `Impl` column says no: the seventeen of 44_unimplemented.md. -/
def unimplementedRows : List Nat := [3, 17, 18, 19, 22, 23, 25, 26, 27, 28, 29, 30, 31, 32, 33, 34, 35]

/-- How many of the `count` words from `base` upwards do not decode. -/
def failingWords (base count : Nat) : Nat :=
  (List.range count).countP fun k => decode (BitVec.ofNat 16 (base + k)) == none

/-! ### Sprites -/

/-- The mask `M` of 43_index_display.md R112: pixel (xx, yy) is covered by a set bit of the sprite drawn at (vx, vy). -/
def spriteCovers (vx vy : Byte) (rows : List Byte) (xx yy : Nat) : Prop :=
  ∃ r c : Nat, r < rows.length ∧ c < 8 ∧ yy = vy.toNat % 32 + r ∧ xx = vx.toNat % 64 + c ∧
    (rows.getD r 0).getLsbD (7 - c) = true

end Sys2Proof.Machine
end

