-- ==== Sys2Proof/Certificates/Slice0/Obligations.lean ====
section
/-! DEFINITION. The statements for the provers, one per rule or group of rules of spec/. In a statement about `exec` the
state `s` is the one fetch left: `pc` is the instruction's address + 2 (40_cycle.md R75). The redraw value execute returns is
read from `State.redraw` (log entry 2). -/

open Sys2Proof Sys2Proof.Machine

/-! ### Encoding -/

/-- Derived, 30_encoding.md R70, R71: decoding the encoded word gives the instruction back with every operand, also from
bytes. -/
def Obligations.EncodedInstructionsDecodeBack : Prop :=
  ∀ i : Instr, i.wellFormed = true →
    decode (encode i) = some i ∧
    ∀ rest : List Byte, decodeBytes ((wordBytes (encode i)).1 :: (wordBytes (encode i)).2 :: rest) = .ok (i, rest)

/-- Derived, 30_encoding.md R70: a word has one meaning, and that variant's word is the word itself. -/
def Obligations.DecodedWordsEncodeBack : Prop :=
  ∀ (op : Word) (i : Instr), decode op = some i → i.wellFormed = true ∧ encode i = op

/-- Derived, 30_encoding.md R64 to R68 (the patterns are the spec's, from general knowledge: log entry 29): which variant
each family selects, its operand fields as numbers, and how many words fail: 15, 15 and 7 of the 16 selectors n for each
of the 256 pairs x, y, and 254 and 247 of the 256 selectors kk for each x. -/
def Obligations.FamiliesDecodeOnTheirSelector : Prop :=
  (∀ op : Word, ∀ x y n : Nibble, ∀ kk : Byte, ∀ nnn : Addr,
    x.toNat = op.toNat / 256 % 16 → y.toNat = op.toNat / 16 % 16 → n.toNat = op.toNat % 16 →
    kk.toNat = op.toNat % 256 → nnn.toNat = op.toNat % 4096 →
    (op.toNat / 4096 = 1 → decode op = some (.jp nnn)) ∧
    (op.toNat / 4096 = 2 → decode op = some (.call nnn)) ∧
    (op.toNat / 4096 = 3 → decode op = some (.seImm x kk)) ∧
    (op.toNat / 4096 = 4 → decode op = some (.sneImm x kk)) ∧
    (op.toNat / 4096 = 5 → decode op = if n.toNat = 0 then some (.seReg x y) else none) ∧
    (op.toNat / 4096 = 6 → decode op = some (.ldImm x kk)) ∧
    (op.toNat / 4096 = 7 → decode op = some (.addImm x kk)) ∧
    (op.toNat / 4096 = 8 → decode op =
      [some (.ldReg x y), some (.orReg x y), some (.andReg x y), some (.xorReg x y), some (.addReg x y), some (.subReg x y),
        some (.shr x y), some (.subn x y), none, none, none, none, none, none, some (.shl x y), none].getD n.toNat none) ∧
    (op.toNat / 4096 = 9 → decode op = if n.toNat = 0 then some (.sneReg x y) else none) ∧
    (op.toNat / 4096 = 10 → decode op = some (.ldI nnn)) ∧
    (op.toNat / 4096 = 11 → decode op = some (.jpV0 nnn)) ∧
    (op.toNat / 4096 = 12 → decode op = some (.rnd x kk)) ∧
    (op.toNat / 4096 = 13 → decode op = some (.drw x y n)) ∧
    (op.toNat / 4096 = 14 → decode op =
      if kk.toNat = 0x9E then some (.skp x) else if kk.toNat = 0xA1 then some (.sknp x) else none) ∧
    (op.toNat / 4096 = 15 → decode op =
      if kk.toNat = 0x07 then some (.ldVxDT x) else if kk.toNat = 0x0A then some (.ldVxK x)
      else if kk.toNat = 0x15 then some (.ldDTVx x) else if kk.toNat = 0x18 then some (.ldSTVx x)
      else if kk.toNat = 0x1E then some (.addIVx x) else if kk.toNat = 0x29 then some (.ldFVx x)
      else if kk.toNat = 0x33 then some (.ldBVx x) else if kk.toNat = 0x55 then some (.ldMemVx x)
      else if kk.toNat = 0x65 then some (.ldVxMem x) else none)) ∧
  (∀ x y : Nibble, failingWords (0x5000 + x.toNat * 256 + y.toNat * 16) 16 = 15 ∧
    failingWords (0x9000 + x.toNat * 256 + y.toNat * 16) 16 = 15 ∧
    failingWords (0x8000 + x.toNat * 256 + y.toNat * 16) 16 = 7) ∧
  (∀ x : Nibble, failingWords (0xE000 + x.toNat * 256) 256 = 254 ∧ failingWords (0xF000 + x.toNat * 256) 256 = 247)

/-- Derived, 30_encoding.md R63 with the spec's choices D10 and D27 (log entry 12): family 0 never fails; only the two
exact words are CLS and RET. -/
def Obligations.FamilyZeroDecodesToClsRetOrSys : Prop :=
  ∀ (op : Word) (nnn : Addr), op.toNat < 4096 → nnn.toNat = op.toNat →
    decode op = if op.toNat = 0x0E0 then some .cls else if op.toNat = 0x0EE then some .ret else some (.sys nnn)

/-- Derived, 30_encoding.md R62 (its match and mask columns; the patterns are from general knowledge, log entry 29, and row 3's
exclusion is the spec's C6 and D27, log entry 12): of the 35 rows exactly the decoded variant's matches the word, and none
matches a word that fails to decode. -/
def Obligations.DecoderAgreesWithMatchAndMaskTable : Prop :=
  opcodeTable.map (·.row) = (List.range 35).map (· + 1) ∧
  ∀ op : Word, (opcodeTable.filter (·.matchesWord op)).map (·.row) = ((decode op).map Instr.row).toList

/-- Derived, 30_encoding.md R62 (the patterns are from general knowledge: log entry 29): for every family, a word written out
bit by bit decodes to the instruction it stands for, and one word of family 5 fails. 0xD123 is the source's own example. -/
def Obligations.WrittenOutWordsDecode : Prop :=
  decode 0b0000000011100000 = some .cls ∧ decode 0b0000000011101110 = some .ret ∧
  decode 0b0001111111111111 = some (.jp 0xFFF) ∧ decode 0b0010101010111100 = some (.call 0xABC) ∧
  decode 0b0011111100000000 = some (.seImm 0xF 0x00) ∧ decode 0b0100101001010101 = some (.sneImm 0xA 0x55) ∧
  decode 0b0101101010110000 = some (.seReg 0xA 0xB) ∧ decode 0b0101101010110001 = none ∧
  decode 0b0110000100100011 = some (.ldImm 1 0x23) ∧ decode 0b0111111111111111 = some (.addImm 0xF 0xFF) ∧
  decode 0b1000101010110101 = some (.subReg 0xA 0xB) ∧ decode 0b1001101010110000 = some (.sneReg 0xA 0xB) ∧
  decode 0b1010000100100011 = some (.ldI 0x123) ∧ decode 0b1011000100100011 = some (.jpV0 0x123) ∧
  decode 0b1100000111111111 = some (.rnd 1 0xFF) ∧ decode 0b1101000100100011 = some (.drw 1 2 3) ∧
  decode 0b1110001110100001 = some (.sknp 3) ∧ decode 0b1111001100110011 = some (.ldBVx 3)

/-! ### The step -/

/-- Derived, 40_cycle.md R75, R77, R80: on a running session whose `pc` holds two bytes of RAM, the step is the decoded
instruction's execute on the state with `pc` + 2 (and the first-step mark, log entry 3). -/
def Obligations.StepRunsTheDecodedInstruction : Prop :=
  ∀ (s : State) (i : Instr), s.status = .running → s.pc.toNat + 1 < 4096 →
    decode (s.readByte s.pc.toNat ++ s.readByte (s.pc.toNat + 1)) = some i →
    step s = exec i { s with pc := s.pc + 2, stepped := true }

/-- Derived, 20_memory.md R42, R45, 40_cycle.md R75: fetch is big-endian, the byte at the lower address in bits 15:8, and
advances `pc` by 2, from any `pc` inside RAM; that an odd `pc` is legal is the spec's choice D17 (log entry 22). -/
def Obligations.FetchIsBigEndian : Prop :=
  ∀ s : State, s.pc.toNat + 1 < 4096 →
    ∃ op t, fetch s = .ok (op, t) ∧
      op.toNat = (s.readByte s.pc.toNat).toNat * 256 + (s.readByte (s.pc.toNat + 1)).toNat ∧
      t = { s with pc := s.pc + 2 } ∧ t.pc.toNat = s.pc.toNat + 2

/-- Derived, 40_cycle.md R76, 60_exceptions.md R140 (the spec's choice D6, log entry 16): a fetch that would leave RAM
halts the session with nothing changed, `pc` included. -/
def Obligations.FetchOutsideRamHalts : Prop :=
  ∀ s : State, s.status = .running → 4096 ≤ s.pc.toNat + 1 →
    step s = .next { s with status := .halted (.fetchOutOfBounds s.pc), redraw := none, stepped := true }

/-- Derived, 40_cycle.md R78, 60_exceptions.md R137 (what it leaves is the spec's choice D21, log entry 25): a word that
does not decode halts the session; `pc` stays at the address + 2 and nothing else changes. -/
def Obligations.UndecodableWordHalts : Prop :=
  ∀ (s : State) (op : Word), s.status = .running → s.pc.toNat + 1 < 4096 →
    op = s.readByte s.pc.toNat ++ s.readByte (s.pc.toNat + 1) → decode op = none →
    step s = .next { s with pc := s.pc + 2, status := .halted (.decodeFailure op s.pc), redraw := none, stepped := true }

/-- Derived, 40_cycle.md R84, 60_exceptions.md R146 (the spec's choice D14, log entry 1): a halted session has no step, no
timer tick and no key event, and none of the three answers a next state. -/
def Obligations.HaltedSessionHasNoMove : Prop :=
  ∀ (s : State) (f : FaultRecord), s.status = .halted f →
    step s = .fault (.sessionHalted f) ∧ drive .step s = .fault (.sessionHalted f) ∧
    drive .tickTimers s = .refused .sessionNotRunning ∧ ∀ k b, drive (.setKey k b) s = .refused .sessionNotRunning

/-- Derived, 40_cycle.md R81: every step of a running session finishes, with a redraw value or with a fault, and is never
refused. -/
def Obligations.EveryStepFinishes : Prop :=
  ∀ s : State, s.status = .running →
    ∃ t, step s = .next t ∧ t.stepped = true ∧
      ((t.status = .running ∧ ∃ r, t.redraw = some r) ∨ (∃ f, t.status = .halted f ∧ t.redraw = none))

/-- Derived, 40_cycle.md R83, 60_exceptions.md R135 (the spec's choice D21, log entry 25): a step that faults changes
nothing but the status and, when fetch succeeded, `pc`; the record's address is the instruction's. -/
def Obligations.FaultsArePrecise : Prop :=
  ∀ (s t : State) (f : FaultRecord), step s = .next t → t.status = .halted f →
    f.addr = s.pc ∧ t.pc = (if s.pc.toNat + 1 < 4096 then s.pc + 2 else s.pc) ∧
    KeepsRegsExcept [] s t ∧ t.i = s.i ∧ KeepsStack s t ∧ t.dt = s.dt ∧ t.st = s.st ∧ KeepsMemory s t ∧ KeepsDisplay s t ∧
    t.keys = s.keys ∧ t.params = s.params

/-- Derived, 60_exceptions.md R136 to R143, R154 (D6, D7, D8, D9, D29, D30: log entries 16, 17, 18, 4, 28): each fault is
raised exactly on its condition, with its record. -/
def Obligations.EachFaultExactlyOnItsCondition : Prop :=
  ∀ (s t : State) (w : Word), step s = .next t → w = s.readByte s.pc.toNat ++ s.readByte (s.pc.toNat + 1) →
    (∀ a, t.status = .halted (.fetchOutOfBounds a) ↔ 4096 ≤ s.pc.toNat + 1 ∧ a = s.pc) ∧
    (∀ op a, t.status = .halted (.decodeFailure op a) ↔
      s.pc.toNat + 1 < 4096 ∧ decode w = none ∧ op = w ∧ a = s.pc) ∧
    (∀ op a, t.status = .halted (.stackUnderflow op a) ↔
      s.pc.toNat + 1 < 4096 ∧ w = 0x00EE ∧ s.sp.val = 0 ∧ op = w ∧ a = s.pc) ∧
    (∀ op a, t.status = .halted (.stackOverflow op a) ↔
      s.pc.toNat + 1 < 4096 ∧ w.toNat / 4096 = 2 ∧ s.sp.val = 16 ∧ op = w ∧ a = s.pc) ∧
    (∀ op a i n, t.status = .halted (.spriteOutOfBounds op a i n) ↔
      s.pc.toNat + 1 < 4096 ∧ w.toNat / 4096 = 13 ∧ n.toNat = w.toNat % 16 ∧ 0 < n.toNat ∧ i = s.i ∧
        4096 ≤ i.toNat + n.toNat - 1 ∧ op = w ∧ a = s.pc) ∧
    (∀ op a, t.status = .halted (.unimplemented op a) ↔
      s.pc.toNat + 1 < 4096 ∧ s.params.unimplPolicy = .fault ∧ (∃ i, decode w = some i ∧ i.row ∈ unimplementedRows) ∧
        op = w ∧ a = s.pc)

/-- Derived, 60_exceptions.md R136, R154 (the spec's choices D14 and D29, log entry 28): the code of each kind, and every field of
its record: the address always, the opcode for every kind but FetchOutOfBounds, I and n for SpriteOutOfBounds alone. -/
def Obligations.FaultCodesAndFields : Prop :=
  (∀ (op a i : Word) (n : Nibble),
    (FaultRecord.decodeFailure op a).code = 1 ∧ (FaultRecord.stackUnderflow op a).code = 2 ∧
    (FaultRecord.stackOverflow op a).code = 3 ∧ (FaultRecord.fetchOutOfBounds a).code = 4 ∧
    (FaultRecord.spriteOutOfBounds op a i n).code = 5 ∧ (FaultRecord.unimplemented op a).code = 6 ∧
    (FaultRecord.fetchOutOfBounds a).addr = a ∧ (FaultRecord.fetchOutOfBounds a).opcode = none ∧
    (∀ f ∈ [FaultRecord.decodeFailure op a, .stackUnderflow op a, .stackOverflow op a, .spriteOutOfBounds op a i n,
      .unimplemented op a], f.addr = a ∧ f.opcode = some op) ∧
    (FaultRecord.spriteOutOfBounds op a i n).sprite = some (i, n)) ∧
  ∀ f : FaultRecord, (f.opcode = none ↔ f.code = 4) ∧ (f.sprite = none ↔ f.code ≠ 5)

/-- Derived, 40_cycle.md R82 (the spec's choice D13, log entry 20): a completed step asks for a redraw exactly when its
word is CLS or a DRW. -/
def Obligations.RedrawExactlyForClearAndDraw : Prop :=
  ∀ (s t : State) (w : Word), step s = .next t → t.status = .running →
    w = s.readByte s.pc.toNat ++ s.readByte (s.pc.toNat + 1) →
    t.redraw = some (decide (w = 0x00E0 ∨ w.toNat / 4096 = 13))

/-- Derived, 43_index_display.md R113: only CLS and DRW change the display. -/
def Obligations.OnlyClearAndDrawChangeDisplay : Prop :=
  ∀ (s t : State) (w : Word), step s = .next t → w = s.readByte s.pc.toNat ++ s.readByte (s.pc.toNat + 1) →
    w ≠ 0x00E0 → w.toNat / 4096 ≠ 13 → t.disp = s.disp

/-- Derived, 20_memory.md R41, R55, R56, 10_state.md R29, R32, 44_unimplemented.md R134: no step writes RAM, a timer, the
keypad or a parameter. -/
def Obligations.NoStepWritesRamTimersKeysOrParameters : Prop :=
  ∀ s t : State, step s = .next t →
    KeepsMemory s t ∧ t.mem = s.mem ∧ t.dt = s.dt ∧ t.st = s.st ∧ t.keys = s.keys ∧ t.params = s.params

/-- Derived, 10_state.md R26, 44_unimplemented.md R134: only LD I,nnn changes I, and it leaves bits 15:12 zero. -/
def Obligations.OnlyLoadIndexChangesIndex : Prop :=
  ∀ (s t : State) (w : Word), step s = .next t → w = s.readByte s.pc.toNat ++ s.readByte (s.pc.toNat + 1) →
    t.i = s.i ∨ (w.toNat / 4096 = 10 ∧ t.i.toNat = w.toNat % 4096)

/-- Derived, 10_state.md R24, R25: where `pc` stands after a step that completes, by the word fetched. -/
def Obligations.ProgramCounterAfterStep : Prop :=
  ∀ (s t : State) (w : Word) (x y : Nibble), step s = .next t → t.status = .running →
    w = s.readByte s.pc.toNat ++ s.readByte (s.pc.toNat + 1) →
    x.toNat = w.toNat / 256 % 16 → y.toNat = w.toNat / 16 % 16 →
    (w.toNat / 4096 = 1 ∨ w.toNat / 4096 = 2 → t.pc.toNat = w.toNat % 4096) ∧
    (w = 0x00EE → ∃ h : s.sp.val - 1 < 16, t.pc = s.stack[s.sp.val - 1]) ∧
    (w.toNat / 4096 = 3 → t.pc = if (s.readV x).toNat = w.toNat % 256 then s.pc + 4 else s.pc + 2) ∧
    (w.toNat / 4096 = 4 → t.pc = if (s.readV x).toNat = w.toNat % 256 then s.pc + 2 else s.pc + 4) ∧
    (w.toNat / 4096 = 5 → t.pc = if s.readV x = s.readV y then s.pc + 4 else s.pc + 2) ∧
    (w.toNat / 4096 = 9 → t.pc = if s.readV x = s.readV y then s.pc + 2 else s.pc + 4) ∧
    (w ≠ 0x00EE → w.toNat / 4096 ∉ [1, 2, 3, 4, 5, 9] → t.pc = s.pc + 2)

/-- Derived, 10_state.md R27: no instruction but CALL and RET touches the call stack, slots above SP included. -/
def Obligations.OnlyCallAndReturnTouchStack : Prop :=
  ∀ (s t : State) (w : Word), step s = .next t → w = s.readByte s.pc.toNat ++ s.readByte (s.pc.toNat + 1) →
    w.toNat / 4096 ≠ 2 → w ≠ 0x00EE → KeepsStack s t

/-- Derived, 10_state.md R21, R22: the general registers a step may write, by the word fetched: Vx for the loads and the
arithmetic, VF beside it for 8xy4 and 8xy5, VF for DRW, none for the rest. -/
def Obligations.RegistersWrittenByStep : Prop :=
  ∀ (s t : State) (w : Word) (x : Nibble), step s = .next t →
    w = s.readByte s.pc.toNat ++ s.readByte (s.pc.toNat + 1) → x.toNat = w.toNat / 256 % 16 →
    (w.toNat / 4096 = 6 ∨ w.toNat / 4096 = 7 ∨ (w.toNat / 4096 = 8 ∧ w.toNat % 16 < 4) → KeepsRegsExcept [x] s t) ∧
    (w.toNat / 4096 = 8 ∧ (w.toNat % 16 = 4 ∨ w.toNat % 16 = 5) → KeepsRegsExcept [x, 0xF] s t) ∧
    (w.toNat / 4096 = 13 → KeepsRegsExcept [0xF] s t) ∧
    (w.toNat / 4096 ∉ [6, 7, 8, 13] ∨ (w.toNat / 4096 = 8 ∧ 6 ≤ w.toNat % 16) → KeepsRegsExcept [] s t)

/-! ### Invariants -/

/-- Derived: the invariant holds after construction with any parameters. Rests on the spec's reset values D1 to D5 (log
entries 7 to 10). -/
def Obligations.ConstructionMeetsInvariant : Prop := ∀ p : Params, (State.construct p).Inv ∧ (State.construct p).status = .running

/-- Derived, 10_state.md R25, R26, R28, R29, 20_memory.md R43: every step keeps the invariant (Safety.lean), the intact font
included, from every state that has it. -/
def Obligations.StepKeepsInvariant : Prop := ∀ s t : State, s.Inv → step s = .next t → t.Inv

/-- Derived, 60_exceptions.md R146, 20_memory.md R43, R50: every driver operation keeps the invariant, `load_rom` of any bytes
included, which leaves the font alone. -/
def Obligations.DriverKeepsInvariant : Prop :=
  ∀ (op : DriverOp) (s t : State) (r : Reply), s.Inv → drive op s = .next (t, r) → t.Inv

/-- Derived, 10_state.md R25, R26, R28, R29, 20_memory.md R43: in every state a session reaches, `pc` is at most 0x1002, I and
every pushed address are in range, both timers are 0 and the font is as construction left it. Rests on the reset values (log
entries 7, 8 and 9). -/
def Obligations.ReachableStatesStayInBounds : Prop :=
  ∀ s : State, Reachable s →
    s.pc.toNat ≤ 0x1002 ∧ s.i.toNat ≤ 0xFFF ∧ (∀ j : Fin 16, s.stack[j].toNat ≤ 0x1000) ∧ s.dt = 0 ∧ s.st = 0 ∧
    ∀ a, a < 80 → s.readByte a = resetByte s.params.fontData a

/-- Derived, 70_reset_and_hazards.md R164, 44_unimplemented.md R134: leaving every `SetKey` and `tick_timers` out of a
session changes nothing but the keypad and the timers, under either policy. -/
def Obligations.DriverInputsDoNotReachTheProgram : Prop :=
  ∀ (ops : List DriverOp) (s t : State), session ops s = .next t →
    ∃ t', session (ops.filter (fun op => !op.isInput)) s = .next t' ∧ SameBesidesInputs t t'

/-! ### Reset -/

/-- Derived, 10_state.md R37 (the values are the spec's choices D1, D4, D5: log entries 7, 8, 10; that `UNIMPL_POLICY` is `Nop`
is its default D9: log entry 4): the state after construction. -/
def Obligations.ResetValues : Prop :=
  let s := State.reset
  s.pc = 0x200 ∧ (∀ k, s.readV k = 0) ∧ s.i = 0 ∧ s.sp.val = 0 ∧ (∀ j : Fin 16, s.stack[j] = 0) ∧ s.dt = 0 ∧ s.st = 0 ∧
    (∀ x y, x < 64 → y < 32 → Display.pixel s.disp x y = false) ∧ (∀ k : Fin 16, s.keys[k] = false) ∧
    s.status = .running ∧ s.params.unimplPolicy = .nop ∧ ∀ a, 80 ≤ a → s.readByte a = 0

/-- Derived, 20_memory.md R43, R44, 10_state.md R37, 70_reset_and_hazards.md R155 (the address and the default bytes are the spec's
choices D2, D3: log entry 9; the 0 above the font is its choice D4: log entry 10): construction puts the parameter `FONT_DATA`
at `FONT_BASE`, whatever its bytes, and 0 above it; the value of the parameter at reset is R44's table. -/
def Obligations.ResetFont : Prop :=
  (∀ p : Params, (∀ a (h : a < 80), (State.construct p).readByte a = p.fontData[a]) ∧
    ∀ a, 80 ≤ a → (State.construct p).readByte a = 0) ∧
  (List.range 80).map State.reset.readByte =
    [0xF0, 0x90, 0x90, 0x90, 0xF0, 0x20, 0x60, 0x20, 0x20, 0x70] ++ [0xF0, 0x10, 0xF0, 0x80, 0xF0, 0xF0, 0x10, 0xF0, 0x10, 0xF0] ++
    [0x90, 0x90, 0xF0, 0x10, 0x10, 0xF0, 0x80, 0xF0, 0x10, 0xF0] ++ [0xF0, 0x80, 0xF0, 0x90, 0xF0, 0xF0, 0x10, 0x20, 0x40, 0x40] ++
    [0xF0, 0x90, 0xF0, 0x90, 0xF0, 0xF0, 0x90, 0xF0, 0x10, 0xF0] ++ [0xF0, 0x90, 0xF0, 0x90, 0x90, 0xE0, 0x90, 0xE0, 0x90, 0xE0] ++
    [0xF0, 0x80, 0x80, 0x80, 0xF0, 0xE0, 0x90, 0x90, 0x90, 0xE0] ++ [0xF0, 0x80, 0xF0, 0x80, 0xF0, 0xF0, 0x80, 0xF0, 0x80, 0x80]

/-! ### Loads and arithmetic -/

/-- Stated, 42_alu.md R95: LD Vx,kk. -/
def Obligations.LoadImmediate : Prop :=
  ∀ (x : Nibble) (kk : Byte) (s : State), ∃ t, exec (.ldImm x kk) s = .next t ∧
    t.readV x = kk ∧ KeepsRegsExcept [x] s t ∧ KeepsOutsideRegs s t ∧ t.redraw = some false

/-- Stated, 42_alu.md R96: ADD Vx,kk wraps and writes no flag. -/
def Obligations.AddImmediateWrapsWithoutFlag : Prop :=
  ∀ (x : Nibble) (kk : Byte) (s : State), ∃ t, exec (.addImm x kk) s = .next t ∧
    (t.readV x).toNat = ((s.readV x).toNat + kk.toNat) % 256 ∧ KeepsRegsExcept [x] s t ∧ KeepsOutsideRegs s t ∧
    t.redraw = some false

/-- Stated, 42_alu.md R97: LD Vx,Vy. -/
def Obligations.CopyRegister : Prop :=
  ∀ (x y : Nibble) (s : State), ∃ t, exec (.ldReg x y) s = .next t ∧
    t.readV x = s.readV y ∧ KeepsRegsExcept [x] s t ∧ KeepsOutsideRegs s t ∧ t.redraw = some false

/-- Stated, 42_alu.md R98, R99, R100: OR, AND and XOR act bitwise and touch no flag. -/
def Obligations.BitwiseOperations : Prop :=
  ∀ (x y : Nibble) (s : State),
    (∃ t, exec (.orReg x y) s = .next t ∧
      (∀ b, b < 8 → (t.readV x).getLsbD b = ((s.readV x).getLsbD b || (s.readV y).getLsbD b)) ∧
      KeepsRegsExcept [x] s t ∧ KeepsOutsideRegs s t ∧ t.redraw = some false) ∧
    (∃ t, exec (.andReg x y) s = .next t ∧
      (∀ b, b < 8 → (t.readV x).getLsbD b = ((s.readV x).getLsbD b && (s.readV y).getLsbD b)) ∧
      KeepsRegsExcept [x] s t ∧ KeepsOutsideRegs s t ∧ t.redraw = some false) ∧
    (∃ t, exec (.xorReg x y) s = .next t ∧
      (∀ b, b < 8 → (t.readV x).getLsbD b = ((s.readV x).getLsbD b ^^ (s.readV y).getLsbD b)) ∧
      KeepsRegsExcept [x] s t ∧ KeepsOutsideRegs s t ∧ t.redraw = some false)

/-- Stated, 42_alu.md R101: ADD Vx,Vy. The carry comes from the unwrapped sum, and both operands are read before any
write; with `x = 0xF` VF ends as the sum or the carry, by the order of the two writes. -/
def Obligations.AddWithCarry : Prop :=
  ∀ (x y : Nibble) (s : State), ∃ t, exec (.addReg x y) s = .next t ∧
    (x ≠ 0xF → (t.readV x).toNat = ((s.readV x).toNat + (s.readV y).toNat) % 256 ∧
      t.readV 0xF = if 255 < (s.readV x).toNat + (s.readV y).toNat then 1 else 0) ∧
    (x = 0xF → s.params.flagOrder = .flagThenResult →
      (t.readV 0xF).toNat = ((s.readV x).toNat + (s.readV y).toNat) % 256) ∧
    (x = 0xF → s.params.flagOrder = .resultThenFlag →
      t.readV 0xF = if 255 < (s.readV x).toNat + (s.readV y).toNat then 1 else 0) ∧
    KeepsRegsExcept [x, 0xF] s t ∧ KeepsOutsideRegs s t ∧ t.redraw = some false

/-- Stated, 42_alu.md R102: SUB Vx,Vy. VF is 1 exactly when there is no borrow. -/
def Obligations.SubtractWithNoBorrowFlag : Prop :=
  ∀ (x y : Nibble) (s : State), ∃ t, exec (.subReg x y) s = .next t ∧
    (x ≠ 0xF → (t.readV x).toNat = ((s.readV x).toNat + 256 - (s.readV y).toNat) % 256 ∧
      t.readV 0xF = if (s.readV y).toNat ≤ (s.readV x).toNat then 1 else 0) ∧
    (x = 0xF → s.params.flagOrder = .flagThenResult →
      (t.readV 0xF).toNat = ((s.readV x).toNat + 256 - (s.readV y).toNat) % 256) ∧
    (x = 0xF → s.params.flagOrder = .resultThenFlag →
      t.readV 0xF = if (s.readV y).toNat ≤ (s.readV x).toNat then 1 else 0) ∧
    KeepsRegsExcept [x, 0xF] s t ∧ KeepsOutsideRegs s t ∧ t.redraw = some false

/-- Stated, 42_alu.md R104: the result and the flag are written in the order of the parameter, and the order can be seen
only when `x = 0xF`. -/
def Obligations.ResultAndFlagWrittenInOrder : Prop :=
  ∀ (s : State) (x : Nibble) (res f : Byte),
    (s.params.flagOrder = .flagThenResult → s.writeResultAndFlag x res f = (s.writeV 0xF f).writeV x res) ∧
    (s.params.flagOrder = .resultThenFlag → s.writeResultAndFlag x res f = (s.writeV x res).writeV 0xF f) ∧
    (x ≠ 0xF → (s.writeV 0xF f).writeV x res = (s.writeV x res).writeV 0xF f)

/-! ### Control flow -/

/-- Stated, 41_control_flow.md R86: JP nnn. -/
def Obligations.JumpSetsProgramCounter : Prop :=
  ∀ (nnn : Addr) (s : State), ∃ t, exec (.jp nnn) s = .next t ∧
    t.pc.toNat = nnn.toNat ∧ KeepsStack s t ∧ KeepsOutsideControl s t ∧ t.redraw = some false

/-- Derived, 41_control_flow.md R87 (the slot layout is the spec's choice D24, log entry 27): CALL with a free slot pushes
the post-fetch `pc` and jumps; the other slots keep their values. -/
def Obligations.CallPushesThenJumps : Prop :=
  ∀ (nnn : Addr) (s : State) (h : s.sp.val < 16), ∃ t, exec (.call nnn) s = .next t ∧
    t.pc.toNat = nnn.toNat ∧ t.sp.val = s.sp.val + 1 ∧ t.stack[s.sp.val] = s.pc ∧
    (∀ j : Fin 16, j.val ≠ s.sp.val → t.stack[j] = s.stack[j]) ∧ KeepsOutsideControl s t ∧ t.redraw = some false

/-- Derived, 41_control_flow.md R85 (the slot layout is the spec's choice D24, log entry 27): RET with an occupied slot
restores the pushed value; the popped slot keeps its value. -/
def Obligations.ReturnRestoresProgramCounter : Prop :=
  ∀ (s : State) (h : 0 < s.sp.val), ∃ t, exec .ret s = .next t ∧
    t.sp.val = s.sp.val - 1 ∧ (∀ j : Fin 16, j.val = s.sp.val - 1 → t.pc = s.stack[j]) ∧ t.stack = s.stack ∧
    KeepsOutsideControl s t ∧ t.redraw = some false

/-- Derived, 41_control_flow.md R85, R87, 60_exceptions.md R138, R139 (D8 and D21 are the spec's choices: log entries 18
and 25): CALL with all sixteen slots occupied, and RET with none, halt the session and change nothing, whatever the slots
hold. -/
def Obligations.StackFaultsHaltUnchanged : Prop :=
  ∀ s : State,
    (s.sp.val = 16 → ∀ (nnn : Addr) (op : Word), op.toNat = 0x2000 + nnn.toNat →
      exec (.call nnn) s = .next { s with status := .halted (.stackOverflow op (s.pc - 2)), redraw := none }) ∧
    (s.sp.val = 0 →
      exec .ret s = .next { s with status := .halted (.stackUnderflow 0x00EE (s.pc - 2)), redraw := none })

/-- Derived, 41_control_flow.md R85, R87, 95_test_vectors.md L1-8: a step that runs a CALL, then any state that keeps the
stack it left, then a step that runs a RET: `pc` is the address after the CALL and SP is as before it. -/
def Obligations.CallThenReturnComesBack : Prop :=
  ∀ (s t u v : State) (nnn : Addr), s.status = .running → s.pc.toNat + 1 < 4096 → s.sp.val < 16 →
    decode (nextWord s) = some (.call nnn) → step s = .next t →
    KeepsStack t u → u.status = .running → u.pc.toNat + 1 < 4096 → decode (nextWord u) = some .ret → step u = .next v →
    t.pc.toNat = nnn.toNat ∧ v.pc = s.pc + 2 ∧ v.sp = s.sp ∧ v.status = .running

/-- Stated, 41_control_flow.md R88, R89: SE Vx,kk and SNE Vx,kk add 2 to `pc` exactly on their condition. -/
def Obligations.SkipOnImmediate : Prop :=
  ∀ (x : Nibble) (kk : Byte) (s : State),
    (∃ t, exec (.seImm x kk) s = .next t ∧
      t.pc.toNat = (if (s.readV x).toNat = kk.toNat then (s.pc.toNat + 2) % 65536 else s.pc.toNat) ∧
      KeepsStack s t ∧ KeepsOutsideControl s t ∧ t.redraw = some false) ∧
    (∃ t, exec (.sneImm x kk) s = .next t ∧
      t.pc.toNat = (if (s.readV x).toNat = kk.toNat then s.pc.toNat else (s.pc.toNat + 2) % 65536) ∧
      KeepsStack s t ∧ KeepsOutsideControl s t ∧ t.redraw = some false)

/-- Stated, 41_control_flow.md R90, R91: SE Vx,Vy and SNE Vx,Vy; with `x = y` the first always skips and the second never.
-/
def Obligations.SkipOnRegisters : Prop :=
  ∀ (x y : Nibble) (s : State),
    (∃ t, exec (.seReg x y) s = .next t ∧
      t.pc.toNat = (if (s.readV x).toNat = (s.readV y).toNat then (s.pc.toNat + 2) % 65536 else s.pc.toNat) ∧
      KeepsStack s t ∧ KeepsOutsideControl s t ∧ t.redraw = some false) ∧
    (∃ t, exec (.sneReg x y) s = .next t ∧
      t.pc.toNat = (if (s.readV x).toNat = (s.readV y).toNat then s.pc.toNat else (s.pc.toNat + 2) % 65536) ∧
      KeepsStack s t ∧ KeepsOutsideControl s t ∧ t.redraw = some false)

/-! ### Index and display -/

/-- Stated, 43_index_display.md R105: LD I,nnn. -/
def Obligations.LoadIndex : Prop :=
  ∀ (nnn : Addr) (s : State), ∃ t, exec (.ldI nnn) s = .next t ∧
    t.i.toNat = nnn.toNat ∧ KeepsRegsExcept [] s t ∧ t.pc = s.pc ∧ KeepsStack s t ∧ KeepsDisplay s t ∧ KeepsRest s t ∧
    t.redraw = some false

/-- Stated, 43_index_display.md R106, 20_memory.md R48: CLS zeroes every pixel and signals redraw; VF is unchanged. -/
def Obligations.ClearDisplayZeroesEveryPixel : Prop :=
  ∀ s : State, ∃ t, exec .cls s = .next t ∧
    (∀ x y, x < 64 → y < 32 → Display.pixel t.disp x y = false) ∧ KeepsRegsExcept [] s t ∧ t.i = s.i ∧ t.pc = s.pc ∧
    KeepsStack s t ∧ KeepsRest s t ∧ t.redraw = some true

/-- Derived, 43_index_display.md R107 to R112 (D12: the origin is read before VF is cleared; D16: bit 7 is leftmost; log
entries 19, 21): the closed form of DRW. When its bytes lie in RAM, the display is XORed with the sprite's mask, clipped
at the edges, and VF is 1 exactly when a covered pixel was 1. -/
def Obligations.DrawIsXorWithCollision : Prop :=
  ∀ (x y n : Nibble) (s : State), (n.toNat = 0 ∨ s.i.toNat + n.toNat - 1 < 4096) →
    ∃ (t : State) (rows : List Byte), exec (.drw x y n) s = .next t ∧
      rows.length = n.toNat ∧ (∀ r, r < n.toNat → rows.getD r 0 = s.readByte (s.i.toNat + r)) ∧
      (∀ xx yy, xx < 64 → yy < 32 →
        (spriteCovers (s.readV x) (s.readV y) rows xx yy →
          Display.pixel t.disp xx yy = !(Display.pixel s.disp xx yy)) ∧
        (¬ spriteCovers (s.readV x) (s.readV y) rows xx yy →
          Display.pixel t.disp xx yy = Display.pixel s.disp xx yy)) ∧
      (t.readV 0xF = 1 ∨ t.readV 0xF = 0) ∧
      (t.readV 0xF = 1 ↔ ∃ xx yy, xx < 64 ∧ yy < 32 ∧ spriteCovers (s.readV x) (s.readV y) rows xx yy ∧
        Display.pixel s.disp xx yy = true) ∧
      KeepsRegsExcept [0xF] s t ∧ t.i = s.i ∧ t.pc = s.pc ∧ KeepsStack s t ∧ KeepsRest s t ∧ t.redraw = some true

/-- Derived, 43_index_display.md R110, 60_exceptions.md R141 (the spec's choice D7, log entry 17): DRW whose bytes do not
all lie in RAM halts the session; VF and the display are unchanged. -/
def Obligations.DrawOutsideRamHalts : Prop :=
  ∀ (x y n : Nibble) (op : Word) (s : State), 0 < n.toNat → 4096 ≤ s.i.toNat + n.toNat - 1 →
    op.toNat = 0xD000 + x.toNat * 256 + y.toNat * 16 + n.toNat →
    exec (.drw x y n) s =
      .next { s with status := .halted (.spriteOutOfBounds op (s.pc - 2) s.i n), redraw := none }

/-- Derived, 43_index_display.md R111, R112: the same sprite drawn twice at the same place leaves the display as it was,
and the second draw sets VF exactly when some covered pixel was 0 before the first. The origin registers are not VF, which
the first draw writes. (R111's own inference, that an unclipped set bit is enough, is wrong where every covered pixel was
1: log entry 15 and the next statement.) -/
def Obligations.DrawTwiceRestoresDisplay : Prop :=
  ∀ (x y n : Nibble) (s t u : State), x ≠ 0xF → y ≠ 0xF → (n.toNat = 0 ∨ s.i.toNat + n.toNat - 1 < 4096) →
    exec (.drw x y n) s = .next t → exec (.drw x y n) t = .next u →
    u.disp = s.disp ∧
    (u.readV 0xF = 1 ↔ ∃ r c xx yy : Nat, r < n.toNat ∧ c < 8 ∧ xx < 64 ∧ yy < 32 ∧
      xx = (s.readV x).toNat % 64 + c ∧ yy = (s.readV y).toNat % 32 + r ∧
      (s.readByte (s.i.toNat + r)).getLsbD (7 - c) = true ∧ Display.pixel s.disp xx yy = false)

/-- Expected to FAIL: 43_index_display.md R111's inference that a second draw of a sprite with an unclipped set bit always
sets VF. R46, R107 and R108 give VF = 0 when every covered pixel was 1 before the first draw (log entry 15). -/
def Obligations.SecondDrawOfUnclippedSpriteAlwaysCollides : Prop :=
  ∀ (x y n : Nibble) (s t u : State), x ≠ 0xF → y ≠ 0xF → (n.toNat = 0 ∨ s.i.toNat + n.toNat - 1 < 4096) →
    exec (.drw x y n) s = .next t → exec (.drw x y n) t = .next u →
    (∃ r c : Nat, r < n.toNat ∧ c < 8 ∧ (s.readV x).toNat % 64 + c < 64 ∧ (s.readV y).toNat % 32 + r < 32 ∧
      (s.readByte (s.i.toNat + r)).getLsbD (7 - c) = true) →
    u.readV 0xF = 1

/-- Stated, 20_memory.md R46: WritePixel XORs the value into one pixel, leaves the others, and returns true iff the pixel
was 1 before and 0 after. -/
def Obligations.WritePixelXorsOnePixel : Prop :=
  ∀ (d : Display) (x y : Nat) (b : Bool), x < 64 → y < 32 →
    Display.pixel (Display.writePixel d x y b).1 x y = (Display.pixel d x y ^^ b) ∧
    (∀ xx yy, xx < 64 → yy < 32 → (xx ≠ x ∨ yy ≠ y) →
      Display.pixel (Display.writePixel d x y b).1 xx yy = Display.pixel d xx yy) ∧
    ((Display.writePixel d x y b).2 = true ↔
      Display.pixel d x y = true ∧ Display.pixel (Display.writePixel d x y b).1 x y = false)

/-! ### The seventeen without effect -/

/-- Stated, 44_unimplemented.md R117, R119 to R128: unless the policy is `Fault`, each completes with redraw false and
changes nothing beyond fetch. -/
def Obligations.UnimplementedInstructionsHaveNoEffect : Prop :=
  ∀ (x y : Nibble) (kk : Byte) (nnn : Addr) (s : State), s.params.unimplPolicy ≠ .fault →
    ∀ i ∈ [Instr.shr x y, .subn x y, .shl x y, .jpV0 nnn, .rnd x kk, .skp x, .sknp x, .ldVxDT x, .ldVxK x, .ldDTVx x,
      .ldSTVx x],
      ∃ t, exec i s = .next t ∧ KeepsRegsExcept [] s t ∧ KeepsOutsideRegs s t ∧ t.redraw = some false

/-- Stated, 44_unimplemented.md R129 to R133: the same of the five that would reach I, the font and RAM. -/
def Obligations.UnimplementedIndexInstructionsHaveNoEffect : Prop :=
  ∀ (x : Nibble) (s : State), s.params.unimplPolicy ≠ .fault →
    ∀ i ∈ [Instr.addIVx x, .ldFVx x, .ldBVx x, .ldMemVx x, .ldVxMem x],
      ∃ t, exec i s = .next t ∧ KeepsRegsExcept [] s t ∧ KeepsOutsideRegs s t ∧ t.redraw = some false

/-- Derived, 44_unimplemented.md R115, R116 (that SYS decodes is the spec's choice D10, the policy D9: log entries 4 and
12): SYS has no effect under `Nop`, and under `Fault` each of the seventeen halts the session and changes nothing. -/
def Obligations.SysHasNoEffectAndFaultPolicyHalts : Prop :=
  (∀ (nnn : Addr) (s : State), s.params.unimplPolicy = .nop →
    ∃ t, exec (.sys nnn) s = .next t ∧ KeepsRegsExcept [] s t ∧ KeepsOutsideRegs s t ∧ t.redraw = some false) ∧
  ∀ (i : Instr) (s : State), i.row ∈ unimplementedRows → s.params.unimplPolicy = .fault →
    exec i s = .next { s with status := .halted (.unimplemented (encode i) (s.pc - 2)), redraw := none }

/-! ### RAM and the driver -/

/-- Derived: two memories in the canonical form that read the same at every address are the same data. The form is the
model's own (log entry 13). -/
def Obligations.EqualReadsMeanEqualMemories : Prop :=
  ∀ (font : FontData) (m m' : Memory), Memory.wf font m → Memory.wf font m' →
    (∀ a, Memory.read font m a = Memory.read font m' a) → m = m'

/-- Derived, 20_memory.md R50, 60_exceptions.md R147 (when it may be called is the spec's choice D28, log entry 3):
`load_rom`. -/
def Obligations.LoadRomIsAllOrNothing : Prop :=
  ∀ (bytes : List Byte) (s : State),
    (s.stepped = true → drive (.loadRom bytes) s = .refused .loadRomAfterFirstStep) ∧
    (s.stepped = false → 3584 < bytes.length → drive (.loadRom bytes) s = .next (s, .romTooLarge)) ∧
    (s.stepped = false → bytes.length ≤ 3584 → Memory.wf s.params.fontData s.mem →
      ∃ m, drive (.loadRom bytes) s = .next ({ s with mem := m }, .romOk) ∧
        ∀ a, Memory.read s.params.fontData m a =
          if 0x200 ≤ a ∧ a < 0x200 + bytes.length then bytes.getD (a - 0x200) 0 else s.readByte a)

/-- Stated, 60_exceptions.md R148: `tick_timers` decrements each timer unless it is already 0, and changes nothing else.
-/
def Obligations.TickDecrementsTimersToZero : Prop :=
  ∀ s : State, s.status = .running →
    ∃ d e : Byte, d.toNat = s.dt.toNat - 1 ∧ e.toNat = s.st.toNat - 1 ∧
      drive .tickTimers s = .next ({ s with dt := d, st := e }, .unit)

/-- Derived, 20_memory.md R49, 60_exceptions.md R146 (an index above 15 is refused by the spec's choice D23, log entry
26): `SetKey`. -/
def Obligations.SetKeySetsOneKey : Prop :=
  ∀ (k : Nat) (b : Bool) (s : State), s.status = .running →
    (k < 16 → ∃ ks : Vector Bool 16, drive (.setKey k b) s = .next ({ s with keys := ks }, .unit) ∧
      ∀ j : Fin 16, ks[j] = if j.val = k then b else s.keys[j]) ∧
    (16 ≤ k → drive (.setKey k b) s = .refused (.keyIndexOutOfRange k))

/-- Derived, 20_memory.md R47, 60_exceptions.md R146: `GetPixel` and read state change nothing; outside the grid
`GetPixel` is refused (the model's choice, log entry 14). -/
def Obligations.DriverReadsChangeNothing : Prop :=
  ∀ (x y : Nat) (s : State),
    (x < 64 → y < 32 → drive (.getPixel x y) s = .next (s, .pixel (Display.pixel s.disp x y))) ∧
    (64 ≤ x ∨ 32 ≤ y → drive (.getPixel x y) s = .refused (.pixelOutOfRange x y)) ∧
    drive .readState s = .next (s, .state s)

/-- Derived, 70_reset_and_hazards.md R155, R156, R158 (the entry address is the spec's choice D1, log entry 8, and that every
register is 0 there its choice D5, log entry 7): after construction and `load_rom` the first step runs the first word of the
ROM. -/
def Obligations.BootRunsTheFirstRomWord : Prop :=
  ∀ (p : Params) (hi lo : Byte) (rest : List Byte) (i : Instr), rest.length ≤ 3582 → decode (hi ++ lo) = some i →
    ∃ s : State, session [.loadRom (hi :: lo :: rest)] (State.construct p) = .next s ∧
      s.pc = 0x200 ∧ (∀ k, s.readV k = 0) ∧ step s = exec i { s with pc := 0x202, stepped := true }

/-- Derived (`withFetchWord` is the model's own, log entry 6): the very next step runs the instruction of the word placed,
from any state whose memory is in the canonical form; only the two bytes it is placed in, `pc` and the status may differ.
-/
def Obligations.PlacedWordIsTheNextToRun : Prop :=
  ∀ (s : State) (w : Nat) (i : Instr) (a : Word), Memory.wf s.params.fontData s.mem → decodeTableWord 16 w = some i →
    a = (if s.pc.toNat + 1 < 4096 then s.pc else 0x200) →
    ∃ m : Memory, step (s.withFetchWord 16 w) =
        exec i { s with pc := a + 2, stepped := true, status := .running, mem := m } ∧
      ∀ b, b ≠ a.toNat → b ≠ a.toNat + 1 → Memory.read s.params.fontData m b = s.readByte b
end

