-- ==== Sys2Proof/Laws/Decode.lean ====
section
/-! SUPPORT. The fields of the encoder's words, as numbers: the arithmetic every fact about decoding rests on. -/

namespace Sys2Proof

/-- A concatenation as a number. -/
theorem toNat_append_add {m n : Nat} (a : BitVec m) (b : BitVec n) : (a ++ b).toNat = a.toNat * 2 ^ n + b.toNat := by
  rw [BitVec.toNat_append, ← Nat.shiftLeft_add_eq_or_of_lt b.isLt, Nat.shiftLeft_eq]

theorem toNat_joinBytes (hi lo : Byte) : (joinBytes hi lo).toNat = hi.toNat * 256 + lo.toNat :=
  toNat_append_add hi lo

theorem toNat_wordPNNN (p : Nibble) (nnn : Addr) : (wordPNNN p nnn).toNat = p.toNat * 4096 + nnn.toNat :=
  toNat_append_add p nnn

theorem toNat_wordPXKK (p x : Nibble) (kk : Byte) :
    (wordPXKK p x kk).toNat = p.toNat * 4096 + x.toNat * 256 + kk.toNat := by
  refine (toNat_append_add (p ++ x) kk).trans ?_
  rw [toNat_append_add]; omega

theorem toNat_wordPXYN (p x y n : Nibble) :
    (wordPXYN p x y n).toNat = p.toNat * 4096 + x.toNat * 256 + y.toNat * 16 + n.toNat := by
  refine (toNat_append_add (p ++ x ++ y) n).trans ?_
  rw [toNat_append_add, toNat_append_add]; omega

theorem toNat_fieldP (op : Word) : (fieldP op).toNat = op.toNat / 4096 := by
  have := op.isLt
  simp only [fieldP, BitVec.extractLsb'_toNat, Nat.shiftRight_eq_div_pow]; omega

theorem toNat_fieldX (op : Word) : (fieldX op).toNat = op.toNat / 256 % 16 := by
  simp only [fieldX, BitVec.extractLsb'_toNat, Nat.shiftRight_eq_div_pow]

theorem toNat_fieldY (op : Word) : (fieldY op).toNat = op.toNat / 16 % 16 := by
  simp only [fieldY, BitVec.extractLsb'_toNat, Nat.shiftRight_eq_div_pow]

theorem toNat_fieldN (op : Word) : (fieldN op).toNat = op.toNat % 16 := by
  simp only [fieldN, BitVec.extractLsb'_toNat, Nat.shiftRight_eq_div_pow]; omega

theorem toNat_fieldKK (op : Word) : (fieldKK op).toNat = op.toNat % 256 := by
  simp only [fieldKK, BitVec.extractLsb'_toNat, Nat.shiftRight_eq_div_pow]; omega

theorem toNat_fieldNNN (op : Word) : (fieldNNN op).toNat = op.toNat % 4096 := by
  simp only [fieldNNN, BitVec.extractLsb'_toNat, Nat.shiftRight_eq_div_pow]; omega

/-! ### Fields of the encoder's words -/

variable (p x y n : Nibble) (kk : Byte) (nnn : Addr)

@[simp] theorem fieldP_wordPNNN : fieldP (wordPNNN p nnn) = p :=
  BitVec.eq_of_toNat_eq (by rw [toNat_fieldP, toNat_wordPNNN]; omega)

@[simp] theorem fieldNNN_wordPNNN : fieldNNN (wordPNNN p nnn) = nnn :=
  BitVec.eq_of_toNat_eq (by rw [toNat_fieldNNN, toNat_wordPNNN]; omega)

@[simp] theorem fieldP_wordPXKK : fieldP (wordPXKK p x kk) = p :=
  BitVec.eq_of_toNat_eq (by rw [toNat_fieldP, toNat_wordPXKK]; omega)

@[simp] theorem fieldX_wordPXKK : fieldX (wordPXKK p x kk) = x :=
  BitVec.eq_of_toNat_eq (by rw [toNat_fieldX, toNat_wordPXKK]; omega)

@[simp] theorem fieldKK_wordPXKK : fieldKK (wordPXKK p x kk) = kk :=
  BitVec.eq_of_toNat_eq (by rw [toNat_fieldKK, toNat_wordPXKK]; omega)

@[simp] theorem fieldP_wordPXYN : fieldP (wordPXYN p x y n) = p :=
  BitVec.eq_of_toNat_eq (by rw [toNat_fieldP, toNat_wordPXYN]; omega)

@[simp] theorem fieldX_wordPXYN : fieldX (wordPXYN p x y n) = x :=
  BitVec.eq_of_toNat_eq (by rw [toNat_fieldX, toNat_wordPXYN]; omega)

@[simp] theorem fieldY_wordPXYN : fieldY (wordPXYN p x y n) = y :=
  BitVec.eq_of_toNat_eq (by rw [toNat_fieldY, toNat_wordPXYN]; omega)

@[simp] theorem fieldN_wordPXYN : fieldN (wordPXYN p x y n) = n :=
  BitVec.eq_of_toNat_eq (by rw [toNat_fieldN, toNat_wordPXYN]; omega)

/-! ### A word from its fields -/

theorem wordPNNN_fields (op : Word) : wordPNNN (fieldP op) (fieldNNN op) = op :=
  BitVec.eq_of_toNat_eq (by rw [toNat_wordPNNN, toNat_fieldP, toNat_fieldNNN]; omega)

theorem wordPXKK_fields (op : Word) : wordPXKK (fieldP op) (fieldX op) (fieldKK op) = op :=
  BitVec.eq_of_toNat_eq (by rw [toNat_wordPXKK, toNat_fieldP, toNat_fieldX, toNat_fieldKK]; omega)

theorem wordPXYN_fields (op : Word) : wordPXYN (fieldP op) (fieldX op) (fieldY op) (fieldN op) = op :=
  BitVec.eq_of_toNat_eq (by rw [toNat_wordPXYN, toNat_fieldP, toNat_fieldX, toNat_fieldY, toNat_fieldN]; omega)

/-! ### The last family, the decoder's default arm -/

theorem decode_of_familyF {op : Word} (h : fieldP op = 0xF#4) : decode op = decodeFamilyF op := by
  unfold decode; rw [h]; rfl

/-! ### Bytes -/

@[simp] theorem joinBytes_wordBytes (op : Word) : joinBytes (wordBytes op).1 (wordBytes op).2 = op :=
  BitVec.eq_of_toNat_eq (by
    have := op.isLt
    rw [toNat_joinBytes]
    simp only [wordBytes, BitVec.extractLsb'_toNat, Nat.shiftRight_eq_div_pow]
    omega)

/-- The bytes a word is stored as read back as that word's instruction. -/
theorem decodeTableWord_eq (nbits w : Nat) : decodeTableWord nbits w = decode (tableWord nbits w) := by
  unfold decodeTableWord decodeBytes
  simp only [joinBytes_wordBytes]
  cases decode (tableWord nbits w) <;> rfl

end Sys2Proof
end

