-- ==== Sys2Proof/Laws/Display.lean ====
section
/-! SUPPORT. Pixels: `WritePixel`, `ClearDisplay`, and what one column, one row and the whole compositor do to a pixel and to
the collision bit. -/

namespace Sys2Proof.Machine

/-- Two displays that agree on every pixel of the grid are equal. -/
theorem display_ext {d e : Display} (h : ∀ x y, x < 64 → y < 32 → Display.pixel d x y = Display.pixel e x y) : d = e := by
  ext1 y hy
  refine BitVec.eq_of_getLsbD_eq fun x hx => ?_
  simpa [Display.pixel, hy] using h x y hx hy

@[simp] theorem pixel_cleared (x y : Nat) : Display.pixel Display.cleared x y = false := by
  unfold Display.pixel Display.cleared
  split <;> simp

theorem twoPow64_bit (x xx : Nat) (hx : x < 64) : (BitVec.twoPow 64 x).getLsbD xx = decide (xx = x) := by
  rw [BitVec.getLsbD_twoPow]
  by_cases h : xx = x
  · simp [h, hx]
  · simp [h, Ne.symm h]

/-- `WritePixel` inside the grid (R46). -/
theorem writePixel_spec (d : Display) (x y : Nat) (b : Bool) (hx : x < 64) (hy : y < 32) :
    (Display.writePixel d x y b).2 = (Display.pixel d x y && b) ∧
    ∀ xx yy, xx < 64 → Display.pixel (Display.writePixel d x y b).1 xx yy =
      (Display.pixel d xx yy ^^ (decide (xx = x ∧ yy = y) && b)) := by
  refine ⟨?_, fun xx yy hxx => ?_⟩
  · simp only [Display.writePixel, hy, dif_pos]
    cases Display.pixel d x y <;> cases b <;> rfl
  · simp only [Display.writePixel, hy, dif_pos, Display.pixel]
    by_cases hyy : yy < 32
    · simp only [hyy, dif_pos]
      by_cases h : yy = y
      · subst h
        cases b <;> simp [twoPow64_bit x xx hx]
      · have : y ≠ yy := fun e => h e.symm
        rw [Vector.getElem_set_ne _ _ this]
        simp [h]
    · have : ¬ yy = y := by omega
      simp [hyy, this]

/-- The pixels one column of a row plots. -/
def columnCovers (xx0 yy0 : Nat) (bit : Bool) (xx yy : Nat) : Bool := decide (xx = xx0 ∧ yy = yy0) && bit

theorem plotColumn_spec (xx0 yy0 : Nat) (bit : Bool) (acc : Canvas) (hy : yy0 < 32) :
    (∀ xx yy, xx < 64 → Display.pixel (plotColumn xx0 yy0 bit acc).1 xx yy =
      (Display.pixel acc.1 xx yy ^^ columnCovers xx0 yy0 bit xx yy)) ∧
    (plotColumn xx0 yy0 bit acc).2 = (acc.2 || (decide (xx0 < 64) && bit && Display.pixel acc.1 xx0 yy0)) := by
  unfold plotColumn columnCovers
  by_cases hx : xx0 < 64
  · cases bit
    · simp
    · have h := writePixel_spec acc.1 xx0 yy0 true hx hy
      simp only [hx, decide_true, Bool.and_true, if_true, Bool.true_and]
      exact ⟨fun xx yy hxx => by simpa using h.2 xx yy hxx, by rw [h.1]; simp⟩
  · have : (decide (xx0 < Config.displayW) && bit) = false := by simp [hx]
    rw [this]
    refine ⟨fun xx yy hxx => ?_, by simp⟩
    have : ¬ xx = xx0 := by omega
    simp [this]

/-- The pixels the columns `cs` of a row plot. -/
def columnsCover (x0 yy0 : Nat) (row : Byte) (cs : List Nat) (xx yy : Nat) : Bool :=
  cs.any fun c => columnCovers (x0 + c) yy0 (row.getLsbD (7 - c)) xx yy

theorem columnsCover_cons (x0 yy0 : Nat) (row : Byte) (c : Nat) (cs : List Nat) (xx yy : Nat) :
    columnsCover x0 yy0 row (c :: cs) xx yy =
      (columnCovers (x0 + c) yy0 (row.getLsbD (7 - c)) xx yy || columnsCover x0 yy0 row cs xx yy) := rfl

/-- A list of distinct columns plots each of its pixels once and reports a hit on any that was 1. -/
theorem foldl_plotColumn_spec (x0 yy0 : Nat) (row : Byte) (hy : yy0 < 32) (cs : List Nat) (hcs : cs.Nodup) (acc : Canvas) :
    let acc' := cs.foldl (fun acc c => plotColumn (x0 + c) yy0 (row.getLsbD (7 - c)) acc) acc
    (∀ xx yy, xx < 64 → Display.pixel acc'.1 xx yy = (Display.pixel acc.1 xx yy ^^ columnsCover x0 yy0 row cs xx yy)) ∧
    (acc'.2 = true ↔ acc.2 = true ∨
      ∃ xx, xx < 64 ∧ columnsCover x0 yy0 row cs xx yy0 = true ∧ Display.pixel acc.1 xx yy0 = true) := by
  induction cs generalizing acc with
  | nil => simp [columnsCover]
  | cons c cs ih =>
    obtain ⟨hc, hcs⟩ := List.nodup_cons.mp hcs
    obtain ⟨h1, h2⟩ := plotColumn_spec (x0 + c) yy0 (row.getLsbD (7 - c)) acc hy
    obtain ⟨i1, i2⟩ := ih hcs (plotColumn (x0 + c) yy0 (row.getLsbD (7 - c)) acc)
    have disjoint : ∀ yy, columnsCover x0 yy0 row cs (x0 + c) yy = false := by
      intro yy
      simp only [columnsCover, List.any_eq_false, columnCovers]
      intro c' hc'
      have : c ≠ c' := fun e => hc (e ▸ hc')
      simp [this]
    simp only [List.foldl_cons]
    refine ⟨fun xx yy hxx => ?_, ?_⟩
    · rw [i1 xx yy hxx, h1 xx yy hxx, columnsCover_cons]
      by_cases hx : xx = x0 + c
      · subst hx
        simp [disjoint yy]
      · have : columnCovers (x0 + c) yy0 (row.getLsbD (7 - c)) xx yy = false := by simp [columnCovers, hx]
        simp [this]
    · rw [i2, h2]
      constructor
      · rintro (h | ⟨xx, hxx, hcov, hpix⟩)
        · rcases Bool.or_eq_true_iff.mp h with h | h
          · exact .inl h
          · simp only [Bool.and_eq_true, decide_eq_true_eq] at h
            exact .inr ⟨x0 + c, h.1.1, by simp [columnsCover, columnCovers, h.1.2], h.2⟩
        · refine .inr ⟨xx, hxx, by simp only [columnsCover, List.any_cons] at hcov ⊢; simp [hcov], ?_⟩
          rw [h1 xx yy0 hxx] at hpix
          have : xx ≠ x0 + c := by rintro rfl; rw [disjoint yy0] at hcov; exact nomatch hcov
          simpa [columnCovers, this] using hpix
      · rintro (h | ⟨xx, hxx, hcov, hpix⟩)
        · exact .inl (by simp [h])
        · simp only [columnsCover, List.any_cons, Bool.or_eq_true] at hcov
          rcases hcov with hcov | hcov
          · simp only [columnCovers, Bool.and_eq_true, decide_eq_true_eq] at hcov
            obtain ⟨⟨rfl, -⟩, hb⟩ := hcov
            exact .inl (by simp [hxx, hb, hpix])
          · by_cases hx : xx = x0 + c
            · subst hx
              have := disjoint yy0
              simp only [columnsCover] at this
              rw [this] at hcov
              exact nomatch hcov
            · refine .inr ⟨xx, hxx, hcov, ?_⟩
              rw [h1 xx yy0 hxx, hpix]
              simp [columnCovers, hx]

/-- The pixels one row plots. -/
def rowCovers (x0 yy0 : Nat) (row : Byte) (xx yy : Nat) : Bool := columnsCover x0 yy0 row (List.range 8) xx yy

theorem plotRow_spec (x0 yy0 : Nat) (row : Byte) (acc : Canvas) (hy : yy0 < 32) :
    (∀ xx yy, xx < 64 → Display.pixel (plotRow x0 yy0 row acc).1 xx yy =
      (Display.pixel acc.1 xx yy ^^ rowCovers x0 yy0 row xx yy)) ∧
    ((plotRow x0 yy0 row acc).2 = true ↔ acc.2 = true ∨
      ∃ xx, xx < 64 ∧ rowCovers x0 yy0 row xx yy0 = true ∧ Display.pixel acc.1 xx yy0 = true) :=
  foldl_plotColumn_spec x0 yy0 row hy (List.range 8) List.nodup_range acc

theorem rowCovers_iff {x0 yy0 : Nat} {row : Byte} {xx yy : Nat} :
    rowCovers x0 yy0 row xx yy = true ↔ yy = yy0 ∧ ∃ c, c < 8 ∧ xx = x0 + c ∧ row.getLsbD (7 - c) = true := by
  simp only [rowCovers, columnsCover, List.any_eq_true, List.mem_range, columnCovers, Bool.and_eq_true, decide_eq_true_eq]
  constructor
  · rintro ⟨c, hc, ⟨hx, hy⟩, hb⟩; exact ⟨hy, c, hc, hx, hb⟩
  · rintro ⟨hy, c, hc, hx, hb⟩; exact ⟨c, hc, ⟨hx, hy⟩, hb⟩

/-- The pixels the rows from display row yy0 downwards cover, clipping aside. -/
def rowsCover (x0 : Nat) : Nat → List Byte → Nat → Nat → Bool
  | _, [], _, _ => false
  | yy0, row :: rows, xx, yy => rowCovers x0 yy0 row xx yy || rowsCover x0 (yy0 + 1) rows xx yy

theorem rowsCover_above {x0 yy0 : Nat} {rows : List Byte} {xx yy : Nat} (h : yy < yy0) :
    rowsCover x0 yy0 rows xx yy = false := by
  induction rows generalizing yy0 with
  | nil => rfl
  | cons row rows ih =>
    have hr : rowCovers x0 yy0 row xx yy = false := by
      rw [Bool.eq_false_iff]
      intro e
      have := (rowCovers_iff.mp e).1
      omega
    simp [rowsCover, hr, ih (Nat.lt_succ_of_lt h)]

/-- Everything the compositor's row loop does: each covered pixel of the grid is XORed once, and a hit is reported iff some
covered pixel of the grid was 1. -/
theorem plotRows_spec (x0 : Nat) (rows : List Byte) (yy0 : Nat) (acc : Canvas) :
    (∀ xx yy, xx < 64 → yy < 32 → Display.pixel (plotRows x0 yy0 rows acc).1 xx yy =
      (Display.pixel acc.1 xx yy ^^ rowsCover x0 yy0 rows xx yy)) ∧
    ((plotRows x0 yy0 rows acc).2 = true ↔ acc.2 = true ∨
      ∃ xx yy, xx < 64 ∧ yy < 32 ∧ rowsCover x0 yy0 rows xx yy = true ∧ Display.pixel acc.1 xx yy = true) := by
  induction rows generalizing yy0 acc with
  | nil => simp [plotRows, rowsCover]
  | cons row rows ih =>
    by_cases hy : yy0 < 32
    · obtain ⟨r1, r2⟩ := plotRow_spec x0 yy0 row acc hy
      obtain ⟨i1, i2⟩ := ih (yy0 + 1) (plotRow x0 yy0 row acc)
      simp only [plotRows, Config.displayH, hy, if_true]
      refine ⟨fun xx yy hxx hyy => ?_, ?_⟩
      · rw [i1 xx yy hxx hyy, r1 xx yy hxx]
        by_cases h : yy = yy0
        · subst h
          simp [rowsCover, rowsCover_above (Nat.lt_succ_self yy)]
        · have hr : rowCovers x0 yy0 row xx yy = false := by
            rw [Bool.eq_false_iff]; exact fun e => h (rowCovers_iff.mp e).1
          simp [rowsCover, hr]
      · rw [i2, r2]
        constructor
        · rintro ((h | ⟨xx, hxx, hc, hp⟩) | ⟨xx, yy, hxx, hyy, hc, hp⟩)
          · exact .inl h
          · exact .inr ⟨xx, yy0, hxx, hy, by simp [rowsCover, hc], hp⟩
          · have hne : yy ≠ yy0 := by
              rintro rfl
              rw [rowsCover_above (Nat.lt_succ_self yy)] at hc
              exact nomatch hc
            have hr : rowCovers x0 yy0 row xx yy = false := by
              rw [Bool.eq_false_iff]; exact fun e => hne (rowCovers_iff.mp e).1
            rw [r1 xx yy hxx, hr] at hp
            exact .inr ⟨xx, yy, hxx, hyy, by simp [rowsCover, hc], by simpa using hp⟩
        · rintro (h | ⟨xx, yy, hxx, hyy, hc, hp⟩)
          · exact .inl (.inl h)
          · simp only [rowsCover, Bool.or_eq_true] at hc
            rcases hc with hc | hc
            · have := (rowCovers_iff.mp hc).1
              subst this
              exact .inl (.inr ⟨xx, hxx, hc, hp⟩)
            · have hne : yy ≠ yy0 := by
                rintro rfl
                rw [rowsCover_above (Nat.lt_succ_self yy)] at hc
                exact nomatch hc
              have hr : rowCovers x0 yy0 row xx yy = false := by
                rw [Bool.eq_false_iff]; exact fun e => hne (rowCovers_iff.mp e).1
              exact .inr ⟨xx, yy, hxx, hyy, hc, by rw [r1 xx yy hxx, hr, hp]; rfl⟩
    · obtain ⟨i1, i2⟩ := ih (yy0 + 1) acc
      simp only [plotRows, Config.displayH, hy, if_false]
      have hr : ∀ xx yy, yy < 32 → rowCovers x0 yy0 row xx yy = false := by
        intro xx yy hyy
        rw [Bool.eq_false_iff]
        intro e
        have := (rowCovers_iff.mp e).1
        omega
      refine ⟨fun xx yy hxx hyy => ?_, ?_⟩
      · rw [i1 xx yy hxx hyy]
        simp [rowsCover, hr xx yy hyy]
      · rw [i2]
        constructor
        · rintro (h | ⟨xx, yy, hxx, hyy, hc, hp⟩)
          · exact .inl h
          · exact .inr ⟨xx, yy, hxx, hyy, by simp [rowsCover, hc], hp⟩
        · rintro (h | ⟨xx, yy, hxx, hyy, hc, hp⟩)
          · exact .inl h
          · exact .inr ⟨xx, yy, hxx, hyy, by simpa [rowsCover, hr xx yy hyy] using hc, hp⟩

/-- Covered pixels, row by row. -/
theorem rowsCover_iff {x0 yy0 : Nat} {rows : List Byte} {xx yy : Nat} :
    rowsCover x0 yy0 rows xx yy = true ↔
      ∃ r c, r < rows.length ∧ c < 8 ∧ yy = yy0 + r ∧ xx = x0 + c ∧ (rows.getD r 0).getLsbD (7 - c) = true := by
  induction rows generalizing yy0 with
  | nil => simp [rowsCover]
  | cons row rows ih =>
    simp only [rowsCover, Bool.or_eq_true, rowCovers_iff, ih]
    constructor
    · rintro (⟨rfl, c, hc, hx, hb⟩ | ⟨r, c, hr, hc, hy, hx, hb⟩)
      · exact ⟨0, c, by simp, hc, rfl, hx, by simpa using hb⟩
      · exact ⟨r + 1, c, by simpa using hr, hc, by omega, hx, by simpa using hb⟩
    · rintro ⟨r, c, hr, hc, hy, hx, hb⟩
      cases r with
      | zero => exact .inl ⟨hy, c, hc, hx, by simpa using hb⟩
      | succ r => exact .inr ⟨r, c, by simpa using hr, hc, by omega, hx, by simpa using hb⟩

/-- Everything the compositor does (43_index_display.md R108), in the words of the mask of R112. -/
theorem composite_spec (vx vy : Byte) (rows : List Byte) (d : Display) :
    (∀ xx yy, xx < 64 → yy < 32 →
      (spriteCovers vx vy rows xx yy → Display.pixel (composite vx vy rows d).1 xx yy = !(Display.pixel d xx yy)) ∧
      (¬ spriteCovers vx vy rows xx yy → Display.pixel (composite vx vy rows d).1 xx yy = Display.pixel d xx yy)) ∧
    ((composite vx vy rows d).2 = true ↔
      ∃ xx yy, xx < 64 ∧ yy < 32 ∧ spriteCovers vx vy rows xx yy ∧ Display.pixel d xx yy = true) := by
  have hcov : ∀ xx yy, rowsCover (originX vx) (originY vy) rows xx yy = true ↔ spriteCovers vx vy rows xx yy :=
    fun _ _ => rowsCover_iff
  obtain ⟨h1, h2⟩ := plotRows_spec (originX vx) rows (originY vy) (d, false)
  refine ⟨fun xx yy hx hy => ⟨fun hc => ?_, fun hc => ?_⟩, ?_⟩
  · exact (h1 xx yy hx hy).trans (by rw [(hcov xx yy).mpr hc]; simp)
  · exact (h1 xx yy hx hy).trans (by rw [Bool.eq_false_iff.mpr fun e => hc ((hcov xx yy).mp e)]; simp)
  · refine h2.trans ?_
    simp only [Bool.false_eq_true, false_or, hcov]

end Sys2Proof.Machine
end

