-- ==== Sys2Proof/Laws/Memory.lean ====
section
/-! SUPPORT. RAM: a read after a write, and every memory operation keeps the canonical form. -/

namespace Sys2Proof.Machine

/-- After construction the font region holds the parameter `FONT_DATA` (20_memory.md R43, R44). -/
theorem resetByte_of_lt (f : FontData) {a : Nat} (h : a < 80) : resetByte f a = f[a] := by
  unfold resetByte
  exact dif_pos ⟨Nat.zero_le a, h⟩

/-- After construction every byte past the font is 0 (10_state.md R37). -/
theorem resetByte_of_le (f : FontData) {a : Nat} (h : 80 ≤ a) : resetByte f a = 0 := by
  unfold resetByte
  exact dif_neg fun h' => Nat.not_lt_of_le h h'.2

end Sys2Proof.Machine

namespace Sys2Proof.Machine.Memory

variable {f : FontData}

theorem read_write_same (m : Memory) (a : Nat) (b : Byte) (h : wf f m) : read f (write f m a b) a = b := by
  induction m with
  | nil =>
    simp only [write]
    split <;> rename_i hb <;> simp [read, hb]
  | cons c m ih =>
    obtain ⟨k, c⟩ := c
    have hm : wf f m := ⟨h.1.tail, fun d hd => h.2 d (List.mem_cons_of_mem _ hd)⟩
    have hlt : ∀ d ∈ m, k < d.1 := (List.pairwise_cons.mp h.1).1
    have absent : ∀ (m' : Memory), (∀ d ∈ m', a < d.1) → read f m' a = resetByte f a := by
      intro m' hm'
      induction m' with
      | nil => rfl
      | cons d m' ih' =>
        have hd := hm' d List.mem_cons_self
        simp only [read, if_neg (Nat.ne_of_lt hd)]
        exact ih' fun e he => hm' e (List.mem_cons_of_mem _ he)
    simp only [write]
    split
    · rename_i hak
      split
      · rename_i hb
        rw [hb]
        refine absent _ fun d hd => ?_
        rcases List.mem_cons.mp hd with rfl | hd
        · exact hak
        · exact Nat.lt_trans hak (hlt d hd)
      · simp [read]
    · split
      · rename_i _ hak
        split
        · rename_i hb
          rw [hb]
          exact absent _ fun d hd => hak ▸ hlt d hd
        · simp [read]
      · rename_i _ hak
        simp only [read, if_neg hak]
        exact ih hm

theorem read_write_other (m : Memory) (a a' : Nat) (b : Byte) (h : a' ≠ a) (hw : wf f m) :
    read f (write f m a b) a' = read f m a' := by
  induction m with
  | nil =>
    simp only [write]
    split <;> simp [read, h]
  | cons c m ih =>
    obtain ⟨k, c⟩ := c
    have hm : wf f m := ⟨hw.1.tail, fun d hd => hw.2 d (List.mem_cons_of_mem _ hd)⟩
    simp only [write]
    split
    · split <;> simp [read, h]
    · split
      · rename_i hak
        subst hak
        split <;> simp [read, h]
      · simp only [read, ih hm]

/-- The addresses listed after a write: those listed before, and the written one. -/
theorem mem_write {m : Memory} {a : Nat} {b : Byte} {c : Host.Cell} (hc : c ∈ write f m a b) :
    c ∈ m ∨ (c = (a, b) ∧ b ≠ resetByte f a) := by
  induction m with
  | nil =>
    simp only [write] at hc
    split at hc <;> simp_all
  | cons d m ih =>
    obtain ⟨k, d⟩ := d
    simp only [write] at hc
    split at hc
    · split at hc
      · exact .inl hc
      · rcases List.mem_cons.mp hc with rfl | hc
        · exact .inr ⟨rfl, ‹_›⟩
        · exact .inl hc
    · split at hc
      · split at hc
        · exact .inl (List.mem_cons_of_mem _ hc)
        · rcases List.mem_cons.mp hc with rfl | hc
          · exact .inr ⟨rfl, ‹_›⟩
          · exact .inl (List.mem_cons_of_mem _ hc)
      · rcases List.mem_cons.mp hc with rfl | hc
        · exact .inl List.mem_cons_self
        · exact (ih hc).imp_left (List.mem_cons_of_mem _)

theorem write_wf (m : Memory) (a : Nat) (b : Byte) (ha : a < ramSize) (h : wf f m) : wf f (write f m a b) := by
  refine ⟨?_, fun c hc => ?_⟩
  · induction m with
    | nil =>
      simp only [write]
      split <;> simp
    | cons d m ih =>
      obtain ⟨k, d⟩ := d
      have hp := List.pairwise_cons.mp h.1
      have hm : wf f m := ⟨hp.2, fun d hd => h.2 d (List.mem_cons_of_mem _ hd)⟩
      simp only [write]
      split
      · rename_i hak
        split
        · exact h.1
        · refine List.pairwise_cons.mpr ⟨fun e he => ?_, h.1⟩
          rcases List.mem_cons.mp he with rfl | he
          · exact hak
          · exact Nat.lt_trans hak (hp.1 e he)
      · split
        · rename_i _ hak
          split
          · exact hp.2
          · exact List.pairwise_cons.mpr ⟨fun e he => hak ▸ hp.1 e he, hp.2⟩
        · refine List.pairwise_cons.mpr ⟨fun e he => ?_, ih hm⟩
          rcases mem_write he with he | ⟨rfl, -⟩
          · exact hp.1 e he
          · simp only; omega
  · rcases mem_write hc with hc | ⟨rfl, hb⟩
    · exact h.2 c hc
    · exact ⟨ha, hb⟩

theorem writeBytes_wf (m : Memory) (a : Nat) (bs : List Byte) (ha : a + bs.length ≤ ramSize) (h : wf f m) :
    wf f (writeBytes f m a bs) := by
  induction bs generalizing m a with
  | nil => exact h
  | cons b bs ih =>
    simp only [List.length_cons] at ha
    exact ih _ _ (by omega) (write_wf m a b (by omega) h)

/-- Reading after storing consecutive bytes: inside them the stored byte, outside them what was there. -/
theorem read_writeBytes (m : Memory) (a : Nat) (bs : List Byte) (a' : Nat) (ha : a + bs.length ≤ ramSize) (h : wf f m) :
    read f (writeBytes f m a bs) a' =
      if a ≤ a' ∧ a' < a + bs.length then bs.getD (a' - a) 0 else read f m a' := by
  induction bs generalizing m a with
  | nil => simp [writeBytes]
  | cons b bs ih =>
    simp only [List.length_cons] at ha
    simp only [writeBytes, List.length_cons]
    rw [ih _ _ (by omega) (write_wf m a b (by omega) h)]
    by_cases h0 : a' = a
    · subst h0
      simp [read_write_same m a' b h]
    · rw [read_write_other m a a' b h0 h]
      by_cases h1 : a + 1 ≤ a' ∧ a' < a + 1 + bs.length
      · rw [if_pos h1, if_pos (by omega)]
        obtain ⟨d, hd⟩ : ∃ d, a' - a = d + 1 := ⟨a' - a - 1, by omega⟩
        rw [hd, List.getD_cons_succ]
        congr 1
        omega
      · rw [if_neg h1, if_neg (by omega)]

@[simp] theorem length_readBytes (m : Memory) (a n : Nat) : (readBytes f m a n).length = n := by
  induction n generalizing a with
  | zero => rfl
  | succ n ih => simp [readBytes, ih]

/-- Byte k of a read of consecutive bytes. -/
theorem getD_readBytes (m : Memory) (a n k : Nat) (h : k < n) : (readBytes f m a n).getD k 0 = read f m (a + k) := by
  induction n generalizing a k with
  | zero => omega
  | succ n ih =>
    cases k with
    | zero => simp [readBytes]
    | succ k =>
      rw [readBytes, List.getD_cons_succ, ih _ _ (by omega)]
      congr 1
      omega

theorem nil_wf : wf f [] := ⟨List.Pairwise.nil, fun _ h => absurd h List.not_mem_nil⟩

end Sys2Proof.Machine.Memory
end

