-- ==== Sys2Proof/Laws/State.lean ====
section
/-! SUPPORT. One lemma per field per update of State, each true by rfl, so that no proof unfolds a record update. -/

namespace Sys2Proof.Machine

variable (s : State)

/-! ### writeV -/

@[simp] theorem writeV_v (x : Nibble) (b : Byte) : (s.writeV x b).v = s.v.set x.toNat b x.isLt := rfl
@[simp] theorem writeV_i (x : Nibble) (b : Byte) : (s.writeV x b).i = s.i := rfl
@[simp] theorem writeV_pc (x : Nibble) (b : Byte) : (s.writeV x b).pc = s.pc := rfl
@[simp] theorem writeV_sp (x : Nibble) (b : Byte) : (s.writeV x b).sp = s.sp := rfl
@[simp] theorem writeV_stack (x : Nibble) (b : Byte) : (s.writeV x b).stack = s.stack := rfl
@[simp] theorem writeV_dt (x : Nibble) (b : Byte) : (s.writeV x b).dt = s.dt := rfl
@[simp] theorem writeV_st (x : Nibble) (b : Byte) : (s.writeV x b).st = s.st := rfl
@[simp] theorem writeV_mem (x : Nibble) (b : Byte) : (s.writeV x b).mem = s.mem := rfl
@[simp] theorem writeV_disp (x : Nibble) (b : Byte) : (s.writeV x b).disp = s.disp := rfl
@[simp] theorem writeV_keys (x : Nibble) (b : Byte) : (s.writeV x b).keys = s.keys := rfl
@[simp] theorem writeV_status (x : Nibble) (b : Byte) : (s.writeV x b).status = s.status := rfl
@[simp] theorem writeV_stepped (x : Nibble) (b : Byte) : (s.writeV x b).stepped = s.stepped := rfl
@[simp] theorem writeV_redraw (x : Nibble) (b : Byte) : (s.writeV x b).redraw = s.redraw := rfl
@[simp] theorem writeV_params (x : Nibble) (b : Byte) : (s.writeV x b).params = s.params := rfl

/-! ### setI -/

@[simp] theorem setI_v (w : Word) : (s.setI w).v = s.v := rfl
@[simp] theorem setI_i (w : Word) : (s.setI w).i = w := rfl
@[simp] theorem setI_pc (w : Word) : (s.setI w).pc = s.pc := rfl
@[simp] theorem setI_sp (w : Word) : (s.setI w).sp = s.sp := rfl
@[simp] theorem setI_stack (w : Word) : (s.setI w).stack = s.stack := rfl
@[simp] theorem setI_dt (w : Word) : (s.setI w).dt = s.dt := rfl
@[simp] theorem setI_st (w : Word) : (s.setI w).st = s.st := rfl
@[simp] theorem setI_mem (w : Word) : (s.setI w).mem = s.mem := rfl
@[simp] theorem setI_disp (w : Word) : (s.setI w).disp = s.disp := rfl
@[simp] theorem setI_keys (w : Word) : (s.setI w).keys = s.keys := rfl
@[simp] theorem setI_status (w : Word) : (s.setI w).status = s.status := rfl
@[simp] theorem setI_stepped (w : Word) : (s.setI w).stepped = s.stepped := rfl
@[simp] theorem setI_redraw (w : Word) : (s.setI w).redraw = s.redraw := rfl
@[simp] theorem setI_params (w : Word) : (s.setI w).params = s.params := rfl

/-! ### setPc -/

@[simp] theorem setPc_v (w : Word) : (s.setPc w).v = s.v := rfl
@[simp] theorem setPc_i (w : Word) : (s.setPc w).i = s.i := rfl
@[simp] theorem setPc_pc (w : Word) : (s.setPc w).pc = w := rfl
@[simp] theorem setPc_sp (w : Word) : (s.setPc w).sp = s.sp := rfl
@[simp] theorem setPc_stack (w : Word) : (s.setPc w).stack = s.stack := rfl
@[simp] theorem setPc_dt (w : Word) : (s.setPc w).dt = s.dt := rfl
@[simp] theorem setPc_st (w : Word) : (s.setPc w).st = s.st := rfl
@[simp] theorem setPc_mem (w : Word) : (s.setPc w).mem = s.mem := rfl
@[simp] theorem setPc_disp (w : Word) : (s.setPc w).disp = s.disp := rfl
@[simp] theorem setPc_keys (w : Word) : (s.setPc w).keys = s.keys := rfl
@[simp] theorem setPc_status (w : Word) : (s.setPc w).status = s.status := rfl
@[simp] theorem setPc_stepped (w : Word) : (s.setPc w).stepped = s.stepped := rfl
@[simp] theorem setPc_redraw (w : Word) : (s.setPc w).redraw = s.redraw := rfl
@[simp] theorem setPc_params (w : Word) : (s.setPc w).params = s.params := rfl

/-! ### advancePc -/

@[simp] theorem advancePc_v : (s.advancePc).v = s.v := rfl
@[simp] theorem advancePc_i : (s.advancePc).i = s.i := rfl
@[simp] theorem advancePc_pc : (s.advancePc).pc = s.pc + 2 := rfl
@[simp] theorem advancePc_sp : (s.advancePc).sp = s.sp := rfl
@[simp] theorem advancePc_stack : (s.advancePc).stack = s.stack := rfl
@[simp] theorem advancePc_dt : (s.advancePc).dt = s.dt := rfl
@[simp] theorem advancePc_st : (s.advancePc).st = s.st := rfl
@[simp] theorem advancePc_mem : (s.advancePc).mem = s.mem := rfl
@[simp] theorem advancePc_disp : (s.advancePc).disp = s.disp := rfl
@[simp] theorem advancePc_keys : (s.advancePc).keys = s.keys := rfl
@[simp] theorem advancePc_status : (s.advancePc).status = s.status := rfl
@[simp] theorem advancePc_stepped : (s.advancePc).stepped = s.stepped := rfl
@[simp] theorem advancePc_redraw : (s.advancePc).redraw = s.redraw := rfl
@[simp] theorem advancePc_params : (s.advancePc).params = s.params := rfl

/-! ### setDisp -/

@[simp] theorem setDisp_v (d : Display) : (s.setDisp d).v = s.v := rfl
@[simp] theorem setDisp_i (d : Display) : (s.setDisp d).i = s.i := rfl
@[simp] theorem setDisp_pc (d : Display) : (s.setDisp d).pc = s.pc := rfl
@[simp] theorem setDisp_sp (d : Display) : (s.setDisp d).sp = s.sp := rfl
@[simp] theorem setDisp_stack (d : Display) : (s.setDisp d).stack = s.stack := rfl
@[simp] theorem setDisp_dt (d : Display) : (s.setDisp d).dt = s.dt := rfl
@[simp] theorem setDisp_st (d : Display) : (s.setDisp d).st = s.st := rfl
@[simp] theorem setDisp_mem (d : Display) : (s.setDisp d).mem = s.mem := rfl
@[simp] theorem setDisp_disp (d : Display) : (s.setDisp d).disp = d := rfl
@[simp] theorem setDisp_keys (d : Display) : (s.setDisp d).keys = s.keys := rfl
@[simp] theorem setDisp_status (d : Display) : (s.setDisp d).status = s.status := rfl
@[simp] theorem setDisp_stepped (d : Display) : (s.setDisp d).stepped = s.stepped := rfl
@[simp] theorem setDisp_redraw (d : Display) : (s.setDisp d).redraw = s.redraw := rfl
@[simp] theorem setDisp_params (d : Display) : (s.setDisp d).params = s.params := rfl

/-! ### writeKey -/

@[simp] theorem writeKey_v (k : Nat) (b : Bool) (h : k < Config.nkeys) : (s.writeKey k b h).v = s.v := rfl
@[simp] theorem writeKey_i (k : Nat) (b : Bool) (h : k < Config.nkeys) : (s.writeKey k b h).i = s.i := rfl
@[simp] theorem writeKey_pc (k : Nat) (b : Bool) (h : k < Config.nkeys) : (s.writeKey k b h).pc = s.pc := rfl
@[simp] theorem writeKey_sp (k : Nat) (b : Bool) (h : k < Config.nkeys) : (s.writeKey k b h).sp = s.sp := rfl
@[simp] theorem writeKey_stack (k : Nat) (b : Bool) (h : k < Config.nkeys) : (s.writeKey k b h).stack = s.stack := rfl
@[simp] theorem writeKey_dt (k : Nat) (b : Bool) (h : k < Config.nkeys) : (s.writeKey k b h).dt = s.dt := rfl
@[simp] theorem writeKey_st (k : Nat) (b : Bool) (h : k < Config.nkeys) : (s.writeKey k b h).st = s.st := rfl
@[simp] theorem writeKey_mem (k : Nat) (b : Bool) (h : k < Config.nkeys) : (s.writeKey k b h).mem = s.mem := rfl
@[simp] theorem writeKey_disp (k : Nat) (b : Bool) (h : k < Config.nkeys) : (s.writeKey k b h).disp = s.disp := rfl
@[simp] theorem writeKey_keys (k : Nat) (b : Bool) (h : k < Config.nkeys) : (s.writeKey k b h).keys = s.keys.set k b h := rfl
@[simp] theorem writeKey_status (k : Nat) (b : Bool) (h : k < Config.nkeys) : (s.writeKey k b h).status = s.status := rfl
@[simp] theorem writeKey_stepped (k : Nat) (b : Bool) (h : k < Config.nkeys) : (s.writeKey k b h).stepped = s.stepped := rfl
@[simp] theorem writeKey_redraw (k : Nat) (b : Bool) (h : k < Config.nkeys) : (s.writeKey k b h).redraw = s.redraw := rfl
@[simp] theorem writeKey_params (k : Nat) (b : Bool) (h : k < Config.nkeys) : (s.writeKey k b h).params = s.params := rfl

/-! ### storeWord -/

@[simp] theorem storeWord_v (a : Nat) (w : Word) : (s.storeWord a w).v = s.v := rfl
@[simp] theorem storeWord_i (a : Nat) (w : Word) : (s.storeWord a w).i = s.i := rfl
@[simp] theorem storeWord_pc (a : Nat) (w : Word) : (s.storeWord a w).pc = s.pc := rfl
@[simp] theorem storeWord_sp (a : Nat) (w : Word) : (s.storeWord a w).sp = s.sp := rfl
@[simp] theorem storeWord_stack (a : Nat) (w : Word) : (s.storeWord a w).stack = s.stack := rfl
@[simp] theorem storeWord_dt (a : Nat) (w : Word) : (s.storeWord a w).dt = s.dt := rfl
@[simp] theorem storeWord_st (a : Nat) (w : Word) : (s.storeWord a w).st = s.st := rfl
@[simp] theorem storeWord_mem (a : Nat) (w : Word) : (s.storeWord a w).mem = 
    Memory.writeBytes s.params.fontData s.mem a [(wordBytes w).1, (wordBytes w).2] := rfl
@[simp] theorem storeWord_disp (a : Nat) (w : Word) : (s.storeWord a w).disp = s.disp := rfl
@[simp] theorem storeWord_keys (a : Nat) (w : Word) : (s.storeWord a w).keys = s.keys := rfl
@[simp] theorem storeWord_status (a : Nat) (w : Word) : (s.storeWord a w).status = s.status := rfl
@[simp] theorem storeWord_stepped (a : Nat) (w : Word) : (s.storeWord a w).stepped = s.stepped := rfl
@[simp] theorem storeWord_redraw (a : Nat) (w : Word) : (s.storeWord a w).redraw = s.redraw := rfl
@[simp] theorem storeWord_params (a : Nat) (w : Word) : (s.storeWord a w).params = s.params := rfl

/-! ### raiseFault -/

@[simp] theorem raiseFault_v (f : FaultRecord) : (raiseFault f s).v = s.v := rfl
@[simp] theorem raiseFault_i (f : FaultRecord) : (raiseFault f s).i = s.i := rfl
@[simp] theorem raiseFault_pc (f : FaultRecord) : (raiseFault f s).pc = s.pc := rfl
@[simp] theorem raiseFault_sp (f : FaultRecord) : (raiseFault f s).sp = s.sp := rfl
@[simp] theorem raiseFault_stack (f : FaultRecord) : (raiseFault f s).stack = s.stack := rfl
@[simp] theorem raiseFault_dt (f : FaultRecord) : (raiseFault f s).dt = s.dt := rfl
@[simp] theorem raiseFault_st (f : FaultRecord) : (raiseFault f s).st = s.st := rfl
@[simp] theorem raiseFault_mem (f : FaultRecord) : (raiseFault f s).mem = s.mem := rfl
@[simp] theorem raiseFault_disp (f : FaultRecord) : (raiseFault f s).disp = s.disp := rfl
@[simp] theorem raiseFault_keys (f : FaultRecord) : (raiseFault f s).keys = s.keys := rfl
@[simp] theorem raiseFault_status (f : FaultRecord) : (raiseFault f s).status = .halted f := rfl
@[simp] theorem raiseFault_stepped (f : FaultRecord) : (raiseFault f s).stepped = s.stepped := rfl
@[simp] theorem raiseFault_redraw (f : FaultRecord) : (raiseFault f s).redraw = none := rfl
@[simp] theorem raiseFault_params (f : FaultRecord) : (raiseFault f s).params = s.params := rfl

/-! ### beginStep -/

@[simp] theorem beginStep_v : (beginStep s).v = s.v := rfl
@[simp] theorem beginStep_i : (beginStep s).i = s.i := rfl
@[simp] theorem beginStep_pc : (beginStep s).pc = s.pc := rfl
@[simp] theorem beginStep_sp : (beginStep s).sp = s.sp := rfl
@[simp] theorem beginStep_stack : (beginStep s).stack = s.stack := rfl
@[simp] theorem beginStep_dt : (beginStep s).dt = s.dt := rfl
@[simp] theorem beginStep_st : (beginStep s).st = s.st := rfl
@[simp] theorem beginStep_mem : (beginStep s).mem = s.mem := rfl
@[simp] theorem beginStep_disp : (beginStep s).disp = s.disp := rfl
@[simp] theorem beginStep_keys : (beginStep s).keys = s.keys := rfl
@[simp] theorem beginStep_status : (beginStep s).status = s.status := rfl
@[simp] theorem beginStep_stepped : (beginStep s).stepped = true := rfl
@[simp] theorem beginStep_redraw : (beginStep s).redraw = s.redraw := rfl
@[simp] theorem beginStep_params : (beginStep s).params = s.params := rfl

/-! ### copyRom -/

@[simp] theorem copyRom_v (bytes : List Byte) : (copyRom bytes s).v = s.v := rfl
@[simp] theorem copyRom_i (bytes : List Byte) : (copyRom bytes s).i = s.i := rfl
@[simp] theorem copyRom_pc (bytes : List Byte) : (copyRom bytes s).pc = s.pc := rfl
@[simp] theorem copyRom_sp (bytes : List Byte) : (copyRom bytes s).sp = s.sp := rfl
@[simp] theorem copyRom_stack (bytes : List Byte) : (copyRom bytes s).stack = s.stack := rfl
@[simp] theorem copyRom_dt (bytes : List Byte) : (copyRom bytes s).dt = s.dt := rfl
@[simp] theorem copyRom_st (bytes : List Byte) : (copyRom bytes s).st = s.st := rfl
@[simp] theorem copyRom_mem (bytes : List Byte) : (copyRom bytes s).mem = 
    Memory.writeBytes s.params.fontData s.mem programStart bytes := rfl
@[simp] theorem copyRom_disp (bytes : List Byte) : (copyRom bytes s).disp = s.disp := rfl
@[simp] theorem copyRom_keys (bytes : List Byte) : (copyRom bytes s).keys = s.keys := rfl
@[simp] theorem copyRom_status (bytes : List Byte) : (copyRom bytes s).status = s.status := rfl
@[simp] theorem copyRom_stepped (bytes : List Byte) : (copyRom bytes s).stepped = s.stepped := rfl
@[simp] theorem copyRom_redraw (bytes : List Byte) : (copyRom bytes s).redraw = s.redraw := rfl
@[simp] theorem copyRom_params (bytes : List Byte) : (copyRom bytes s).params = s.params := rfl

/-! ### writeResultAndFlag: everything but the registers is kept -/

@[simp] theorem writeResultAndFlag_i (x : Nibble) (res fl : Byte) :
    (s.writeResultAndFlag x res fl).i = s.i := by
  unfold State.writeResultAndFlag; split <;> rfl
@[simp] theorem writeResultAndFlag_pc (x : Nibble) (res fl : Byte) :
    (s.writeResultAndFlag x res fl).pc = s.pc := by
  unfold State.writeResultAndFlag; split <;> rfl
@[simp] theorem writeResultAndFlag_sp (x : Nibble) (res fl : Byte) :
    (s.writeResultAndFlag x res fl).sp = s.sp := by
  unfold State.writeResultAndFlag; split <;> rfl
@[simp] theorem writeResultAndFlag_stack (x : Nibble) (res fl : Byte) :
    (s.writeResultAndFlag x res fl).stack = s.stack := by
  unfold State.writeResultAndFlag; split <;> rfl
@[simp] theorem writeResultAndFlag_dt (x : Nibble) (res fl : Byte) :
    (s.writeResultAndFlag x res fl).dt = s.dt := by
  unfold State.writeResultAndFlag; split <;> rfl
@[simp] theorem writeResultAndFlag_st (x : Nibble) (res fl : Byte) :
    (s.writeResultAndFlag x res fl).st = s.st := by
  unfold State.writeResultAndFlag; split <;> rfl
@[simp] theorem writeResultAndFlag_mem (x : Nibble) (res fl : Byte) :
    (s.writeResultAndFlag x res fl).mem = s.mem := by
  unfold State.writeResultAndFlag; split <;> rfl
@[simp] theorem writeResultAndFlag_disp (x : Nibble) (res fl : Byte) :
    (s.writeResultAndFlag x res fl).disp = s.disp := by
  unfold State.writeResultAndFlag; split <;> rfl
@[simp] theorem writeResultAndFlag_keys (x : Nibble) (res fl : Byte) :
    (s.writeResultAndFlag x res fl).keys = s.keys := by
  unfold State.writeResultAndFlag; split <;> rfl
@[simp] theorem writeResultAndFlag_status (x : Nibble) (res fl : Byte) :
    (s.writeResultAndFlag x res fl).status = s.status := by
  unfold State.writeResultAndFlag; split <;> rfl
@[simp] theorem writeResultAndFlag_stepped (x : Nibble) (res fl : Byte) :
    (s.writeResultAndFlag x res fl).stepped = s.stepped := by
  unfold State.writeResultAndFlag; split <;> rfl
@[simp] theorem writeResultAndFlag_redraw (x : Nibble) (res fl : Byte) :
    (s.writeResultAndFlag x res fl).redraw = s.redraw := by
  unfold State.writeResultAndFlag; split <;> rfl
@[simp] theorem writeResultAndFlag_params (x : Nibble) (res fl : Byte) :
    (s.writeResultAndFlag x res fl).params = s.params := by
  unfold State.writeResultAndFlag; split <;> rfl

end Sys2Proof.Machine
end

