-- ==== Sys2Proof/Laws/Registers.lean ====
section
/-! SUPPORT. Reading registers, RAM and the stack after each update; push and pop. -/

namespace Sys2Proof.Machine

variable (s t : State)

/-! ### General registers -/

@[simp] theorem readV_writeV_same (x : Nibble) (b : Byte) : (s.writeV x b).readV x = b := by
  simp [State.readV]

theorem readV_writeV_other (x k : Nibble) (b : Byte) (h : k ≠ x) : (s.writeV x b).readV k = s.readV k := by
  have : x.toNat ≠ k.toNat := fun e => h (BitVec.eq_of_toNat_eq e.symm)
  simp only [State.readV, writeV_v]
  exact Vector.getElem_set_ne _ _ this

/-- Reading any register after one write. -/
theorem readV_writeV (x k : Nibble) (b : Byte) : (s.writeV x b).readV k = if k = x then b else s.readV k := by
  split
  · next h => subst h; exact readV_writeV_same s k b
  · next h => exact readV_writeV_other s x k b h

/-- A register reads the register file alone. -/
theorem readV_congr {s t : State} (h : t.v = s.v) (k : Nibble) : t.readV k = s.readV k := by
  unfold State.readV; simp [h]

@[simp] theorem readV_setI (w : Word) (k : Nibble) : (s.setI w).readV k = s.readV k := rfl
@[simp] theorem readV_setPc (w : Word) (k : Nibble) : (s.setPc w).readV k = s.readV k := rfl
@[simp] theorem readV_advancePc (k : Nibble) : s.advancePc.readV k = s.readV k := rfl
@[simp] theorem readV_setDisp (d : Display) (k : Nibble) : (s.setDisp d).readV k = s.readV k := rfl
@[simp] theorem readV_beginStep (k : Nibble) : (beginStep s).readV k = s.readV k := rfl
@[simp] theorem readV_raiseFault (f : FaultRecord) (k : Nibble) : (raiseFault f s).readV k = s.readV k := rfl

/-- Two states whose registers all read the same have the same register file. -/
theorem v_ext {s t : State} (h : ∀ k : Nibble, t.readV k = s.readV k) : t.v = s.v := by
  ext1 j hj
  refine BitVec.eq_of_toNat_eq ?_
  simpa [State.readV, Nat.mod_eq_of_lt hj] using congrArg BitVec.toNat (h (BitVec.ofNat 4 j))

/-! ### RAM -/

/-- A byte of RAM reads the memory and the font parameter alone. -/
theorem readByte_congr {s t : State} (h : t.mem = s.mem) (hp : t.params = s.params) (a : Nat) :
    t.readByte a = s.readByte a := by
  simp [State.readByte, h, hp]

/-- A byte after construction, whatever the font parameter. -/
theorem readByte_construct (p : Params) (a : Nat) : (State.construct p).readByte a = resetByte p.fontData a := rfl

/-- Everything `load_rom`'s copy does to the bytes of RAM (20_memory.md R50). -/
theorem readByte_copyRom (bytes : List Byte) (a : Nat) (hl : bytes.length ≤ romCapacity)
    (h : Memory.wf s.params.fontData s.mem) :
    (copyRom bytes s).readByte a =
      if programStart ≤ a ∧ a < programStart + bytes.length then bytes.getD (a - programStart) 0 else s.readByte a :=
  Memory.read_writeBytes _ _ _ _ (by simp only [romCapacity, ramSize, programStart] at *; omega) h

theorem copyRom_wf (bytes : List Byte) (hl : bytes.length ≤ romCapacity) (h : Memory.wf s.params.fontData s.mem) :
    Memory.wf (copyRom bytes s).params.fontData (copyRom bytes s).mem :=
  Memory.writeBytes_wf _ _ _ (by simp only [romCapacity, ramSize, programStart] at *; omega) h

/-- Everything storing a word does to the bytes of RAM. -/
theorem readByte_storeWord (a a' : Nat) (w : Word) (ha : a + 2 ≤ ramSize) (h : Memory.wf s.params.fontData s.mem) :
    (s.storeWord a w).readByte a' =
      if a ≤ a' ∧ a' < a + 2 then [(wordBytes w).1, (wordBytes w).2].getD (a' - a) 0 else s.readByte a' :=
  Memory.read_writeBytes _ _ _ _ ha h

@[simp] theorem readByte_beginStep (a : Nat) : (beginStep s).readByte a = s.readByte a := rfl

theorem keepsMemory_of_mem {s t : State} (h : t.mem = s.mem) (hp : t.params = s.params) : KeepsMemory s t :=
  readByte_congr h hp

/-! ### Call stack -/

/-- Everything push can do. -/
theorem push_eq_some {w : Word} {s t : State} (h : s.push w = some t) :
    ∃ hlt : s.sp.val < 16, t = { s with stack := s.stack.set s.sp.val w hlt, sp := ⟨s.sp.val + 1, by omega⟩ } := by
  unfold State.push at h
  split at h
  · next hlt => exact ⟨hlt, (Option.some.inj h).symm⟩
  · exact nomatch h

theorem push_eq_none {w : Word} {s : State} : s.push w = none ↔ s.sp.val = 16 := by
  have := s.sp.isLt
  unfold State.push
  split
  · next h =>
    have : s.sp.val < 16 := h
    simp; omega
  · next h =>
    have : ¬ s.sp.val < 16 := h
    simp; omega

/-- Everything pop can do. -/
theorem pop_eq_some {w : Word} {s t : State} (h : s.pop = some (w, t)) :
    ∃ hpos : 0 < s.sp.val, w = s.stack[s.sp.val - 1]'(by have := s.sp.isLt; omega) ∧
      t = { s with sp := ⟨s.sp.val - 1, by have := s.sp.isLt; omega⟩ } := by
  unfold State.pop at h
  split at h
  · next hpos =>
    have := Option.some.inj h
    exact ⟨hpos, (congrArg Prod.fst this).symm, (congrArg Prod.snd this).symm⟩
  · exact nomatch h

theorem pop_eq_none {s : State} : s.pop = none ↔ s.sp.val = 0 := by
  unfold State.pop
  split <;> simp <;> omega

end Sys2Proof.Machine
end

