-- ==== Sys2Proof/Laws/Flags.lean ====
section
/-! SUPPORT. `write_result_and_flag` is R104's two assignments in the order of the parameter. -/

namespace Sys2Proof.Machine

variable (s : State) (x : Nibble) (res f : Byte)

theorem writeResultAndFlag_readV (k : Nibble) :
    (s.writeResultAndFlag x res f).readV k =
      if x = vf then (if k = vf then laterWrite s.params.flagOrder res f else s.readV k)
      else if k = vf then f else if k = x then res else s.readV k := by
  unfold State.writeResultAndFlag
  split
  · rw [readV_writeV]
  · rw [readV_writeV, readV_writeV]

/-- Two states that differ from a third in their registers alone are equal when their registers are. -/
theorem eq_of_v_eq {t u : State} (h : t.v = u.v) (ht : t = { s with v := t.v }) (hu : u = { s with v := u.v }) : t = u := by
  rw [ht, hu, h]

theorem writeResultAndFlag_eq :
    s.writeResultAndFlag x res f = { s with v := (s.writeResultAndFlag x res f).v } := by
  unfold State.writeResultAndFlag; split <;> rfl

/-- R104 under `FlagThenResult`: the flag first, then the result. -/
theorem writeResultAndFlag_flagThenResult (h : s.params.flagOrder = .flagThenResult) :
    s.writeResultAndFlag x res f = (s.writeV vf f).writeV x res := by
  have hv : (s.writeResultAndFlag x res f).v = ((s.writeV vf f).writeV x res).v := by
    refine v_ext fun k => ?_
    rw [writeResultAndFlag_readV, h, readV_writeV, readV_writeV]
    by_cases hx : x = vf <;> by_cases hk : k = vf <;> by_cases hkx : k = x <;> simp_all [laterWrite]
  exact eq_of_v_eq s hv (writeResultAndFlag_eq s x res f) rfl

/-- R104 under `ResultThenFlag`: the result first, then the flag. -/
theorem writeResultAndFlag_resultThenFlag (h : s.params.flagOrder = .resultThenFlag) :
    s.writeResultAndFlag x res f = (s.writeV x res).writeV vf f := by
  have hv : (s.writeResultAndFlag x res f).v = ((s.writeV x res).writeV vf f).v := by
    refine v_ext fun k => ?_
    rw [writeResultAndFlag_readV, h, readV_writeV, readV_writeV]
    by_cases hx : x = vf <;> by_cases hk : k = vf <;> by_cases hkx : k = x <;> simp_all [laterWrite]
  exact eq_of_v_eq s hv (writeResultAndFlag_eq s x res f) rfl

/-! ### The flags as conditions on numbers -/

theorem carryFlag_eq (vx vy : Byte) : carryFlag vx vy = if 255 < vx.toNat + vy.toNat then 1 else 0 := by
  unfold carryFlag flagByte exactSum
  by_cases h : 255 < vx.toNat + vy.toNat <;> simp [h]

theorem noBorrowFlag_eq (vx vy : Byte) : noBorrowFlag vx vy = if vy.toNat ≤ vx.toNat then 1 else 0 := by
  unfold noBorrowFlag flagByte
  by_cases h : vy.toNat ≤ vx.toNat <;> simp [h]

theorem toNat_exactSum (vx vy : Byte) : (BitVec.ofNat 8 (exactSum vx vy)).toNat = (vx.toNat + vy.toNat) % 256 := rfl

/-! ### Operands -/

theorem toNat_zext16 (nnn : Addr) : (zext16 nnn).toNat = nnn.toNat := by
  have := nnn.isLt
  rw [zext16, BitVec.toNat_setWidth]; omega

theorem spriteOutOfBounds_eq_true {i : Word} {n : Nibble} :
    spriteOutOfBounds i n = true ↔ 0 < n.toNat ∧ 4096 ≤ i.toNat + n.toNat - 1 := decide_eq_true_iff

theorem spriteOutOfBounds_eq_false {i : Word} {n : Nibble} :
    spriteOutOfBounds i n = false ↔ n.toNat = 0 ∨ i.toNat + n.toNat - 1 < 4096 := by
  rw [← Bool.not_eq_true, spriteOutOfBounds_eq_true]; omega

@[simp] theorem length_spriteRows (n : Nibble) : (spriteRows s n).length = n.toNat := Memory.length_readBytes _ _ _

theorem getD_spriteRows {n : Nibble} {r : Nat} (h : r < n.toNat) :
    (spriteRows s n).getD r 0 = s.readByte (s.i.toNat + r) := Memory.getD_readBytes _ _ _ _ h

theorem flagByte_eq_one {b : Bool} : flagByte b = 1 ↔ b = true := by cases b <;> decide

theorem flagByte_eq_zero {b : Bool} : flagByte b = 0 ↔ b = false := by cases b <;> decide

end Sys2Proof.Machine
end

