-- ==== Sys2Proof/Laws/Exec.lean ====
section
/-! SUPPORT. Everything an instruction can do, said once: the shared operations' outcomes, that `exec` always answers a next
state, and the fields no instruction writes. -/

namespace Sys2Proof.Machine

variable {s t : State}

/-! ### Shared operations -/

theorem complete_eq_next {r : Bool} : complete r s = .next t ↔ t = { s with redraw := some r } := by
  unfold complete
  exact ⟨fun h => (Host.Outcome.next.inj h).symm, fun h => h ▸ rfl⟩

theorem trap_eq_next {f : FaultRecord} : trap f s = .next t ↔ t = raiseFault f s := by
  unfold trap
  exact ⟨fun h => (Host.Outcome.next.inj h).symm, fun h => h ▸ rfl⟩

theorem skipIf_eq_next {c : Bool} :
    skipIf c s = .next t ↔ t = { s with pc := if c then s.pc + 2 else s.pc, redraw := some false } := by
  unfold skipIf
  rw [complete_eq_next]
  cases c <;> exact Iff.rfl

theorem unimplemented_eq_next {op : Word} :
    unimplemented op s = .next t ↔
      (s.params.unimplPolicy = .nop ∧ t = { s with redraw := some false }) ∨
      (s.params.unimplPolicy = .fault ∧ t = raiseFault (.unimplemented op (instrAddr s)) s) := by
  unfold unimplemented
  cases h : s.params.unimplPolicy
  · simp [complete_eq_next]
  · simp [trap_eq_next]

/-- Everything RET can do. -/
theorem execRet_eq_next :
    execRet s = .next t ↔
      (∃ w s', s.pop = some (w, s') ∧ t = { s' with pc := w, redraw := some false }) ∨
      (s.pop = none ∧ t = raiseFault (.stackUnderflow (encode .ret) (instrAddr s)) s) := by
  unfold execRet
  cases h : s.pop with
  | none => simp [trap_eq_next]
  | some p => obtain ⟨w, s'⟩ := p; simp [complete_eq_next, State.setPc]

/-- Everything CALL can do. -/
theorem execCall_eq_next {nnn : Addr} :
    execCall nnn s = .next t ↔
      (∃ s', s.push s.pc = some s' ∧ t = { s' with pc := zext16 nnn, redraw := some false }) ∨
      (s.push s.pc = none ∧ t = raiseFault (.stackOverflow (encode (.call nnn)) (instrAddr s)) s) := by
  unfold execCall
  cases h : s.push s.pc with
  | none => simp [trap_eq_next]
  | some s' => simp [complete_eq_next, State.setPc]

/-- Everything DRW can do. -/
theorem execDrw_eq_next {x y n : Nibble} :
    execDrw x y n s = .next t ↔
      (spriteOutOfBounds s.i n = true ∧
        t = raiseFault (.spriteOutOfBounds (encode (.drw x y n)) (instrAddr s) s.i n) s) ∨
      (spriteOutOfBounds s.i n = false ∧
        t = { s with
          v := (s.writeV vf (flagByte (composite (s.readV x) (s.readV y) (spriteRows s n) s.disp).2)).v
          disp := (composite (s.readV x) (s.readV y) (spriteRows s n) s.disp).1
          redraw := some true }) := by
  unfold execDrw
  cases hb : spriteOutOfBounds s.i n with
  | true => simp [trap_eq_next]
  | false =>
    simp only [Bool.false_eq_true, if_false, false_and, false_or, true_and]
    rw [complete_eq_next]
    cases hc : (composite (s.readV x) (s.readV y) (spriteRows s n) s.disp).2
    · exact Iff.rfl
    · have hv : ((s.writeV vf 0).writeV vf 1).v = (s.writeV vf (flagByte true)).v :=
        v_ext fun k => by
          rw [readV_writeV, readV_writeV, readV_writeV]
          split <;> rfl
      simp only [if_true, State.setDisp]
      rw [hv]
      exact Iff.rfl

/-! ### Every instruction -/

/-- The seventeen of 44_unimplemented.md all run R115's one operation; the rest is an instruction of its own. -/
theorem exec_unimplemented {i : Instr} (h : i.row ∈ unimplementedRows) : exec i s = unimplemented (encode i) s := by
  cases i with
  | sys nnn => rfl
  | shr x y => rfl
  | subn x y => rfl
  | shl x y => rfl
  | jpV0 nnn => rfl
  | rnd x kk => rfl
  | skp x => rfl
  | sknp x => rfl
  | ldVxDT x => rfl
  | ldVxK x => rfl
  | ldDTVx x => rfl
  | ldSTVx x => rfl
  | addIVx x => rfl
  | ldFVx x => rfl
  | ldBVx x => rfl
  | ldMemVx x => rfl
  | ldVxMem x => rfl
  | _ => simp [Instr.row, unimplementedRows] at h

/-- The eighteen implemented instructions, by what they run: a completion whose status is the entry's, or one of the three with
a fault condition. -/
theorem exec_implemented {i : Instr} (h : i.row ∉ unimplementedRows) :
    i = .ret ∨ (∃ nnn, i = .call nnn) ∨ (∃ x y n, i = .drw x y n) ∨
      ∃ r u, exec i s = complete r u ∧ u.status = s.status ∧ KeepsStack s u := by
  cases i with
  | ret => exact .inl rfl
  | call nnn => exact .inr (.inl ⟨nnn, rfl⟩)
  | drw x y n => exact .inr (.inr (.inl ⟨x, y, n, rfl⟩))
  | addReg x y => exact .inr (.inr (.inr ⟨_, _, rfl, by simp, by simp, by simp⟩))
  | subReg x y => exact .inr (.inr (.inr ⟨_, _, rfl, by simp, by simp, by simp⟩))
  | seImm x kk => exact .inr (.inr (.inr ⟨_, _, rfl, by split <;> rfl, by split <;> exact ⟨rfl, rfl⟩⟩))
  | sneImm x kk => exact .inr (.inr (.inr ⟨_, _, rfl, by split <;> rfl, by split <;> exact ⟨rfl, rfl⟩⟩))
  | seReg x y => exact .inr (.inr (.inr ⟨_, _, rfl, by split <;> rfl, by split <;> exact ⟨rfl, rfl⟩⟩))
  | sneReg x y => exact .inr (.inr (.inr ⟨_, _, rfl, by split <;> rfl, by split <;> exact ⟨rfl, rfl⟩⟩))
  | cls => exact .inr (.inr (.inr ⟨_, _, rfl, rfl, rfl, rfl⟩))
  | jp nnn => exact .inr (.inr (.inr ⟨_, _, rfl, rfl, rfl, rfl⟩))
  | ldImm x kk => exact .inr (.inr (.inr ⟨_, _, rfl, rfl, rfl, rfl⟩))
  | addImm x kk => exact .inr (.inr (.inr ⟨_, _, rfl, rfl, rfl, rfl⟩))
  | ldReg x y => exact .inr (.inr (.inr ⟨_, _, rfl, rfl, rfl, rfl⟩))
  | orReg x y => exact .inr (.inr (.inr ⟨_, _, rfl, rfl, rfl, rfl⟩))
  | andReg x y => exact .inr (.inr (.inr ⟨_, _, rfl, rfl, rfl, rfl⟩))
  | xorReg x y => exact .inr (.inr (.inr ⟨_, _, rfl, rfl, rfl, rfl⟩))
  | ldI nnn => exact .inr (.inr (.inr ⟨_, _, rfl, rfl, rfl, rfl⟩))
  | _ => simp [Instr.row, unimplementedRows] at h

/-- Execute always answers a next state: a completion or a fault taken (40_cycle.md R81). -/
theorem exec_next (i : Instr) (s : State) : ∃ t, exec i s = .next t := by
  by_cases h : i.row ∈ unimplementedRows
  · rw [exec_unimplemented h]
    unfold unimplemented; cases s.params.unimplPolicy <;> exact ⟨_, rfl⟩
  · rcases exec_implemented (s := s) h with rfl | ⟨nnn, rfl⟩ | ⟨x, y, n, rfl⟩ | ⟨r, u, e, -⟩
    · simp only [exec]; unfold execRet; cases s.pop <;> exact ⟨_, rfl⟩
    · simp only [exec]; unfold execCall; cases s.push s.pc <;> exact ⟨_, rfl⟩
    · simp only [exec]; unfold execDrw; cases spriteOutOfBounds s.i n <;> exact ⟨_, rfl⟩
    · exact ⟨_, e⟩

/-- Everything a faulting execute can have done: the fault taken on the unchanged entry state, on one of the four conditions. -/
theorem exec_halts {i : Instr} {f : FaultRecord} (h : exec i s = .next t) (hr : s.status = .running)
    (hf : t.status = .halted f) :
    t = raiseFault f s ∧
    ((f = .stackUnderflow (encode i) (instrAddr s) ∧ i = .ret ∧ s.sp.val = 0) ∨
     (f = .stackOverflow (encode i) (instrAddr s) ∧ (∃ nnn, i = .call nnn) ∧ s.sp.val = 16) ∨
     (∃ x y n, f = .spriteOutOfBounds (encode i) (instrAddr s) s.i n ∧ i = .drw x y n ∧ 0 < n.toNat ∧
       4096 ≤ s.i.toNat + n.toNat - 1) ∨
     (f = .unimplemented (encode i) (instrAddr s) ∧ i.row ∈ unimplementedRows ∧ s.params.unimplPolicy = .fault)) := by
  by_cases hi : i.row ∈ unimplementedRows
  · rw [exec_unimplemented hi] at h
    rcases unimplemented_eq_next.mp h with ⟨-, rfl⟩ | ⟨hp, rfl⟩
    · exact nomatch hr.symm.trans hf
    · cases hf
      exact ⟨rfl, .inr (.inr (.inr ⟨rfl, hi, hp⟩))⟩
  · rcases exec_implemented (s := s) hi with rfl | ⟨nnn, rfl⟩ | ⟨x, y, n, rfl⟩ | ⟨r, u, e, hu, -⟩
    · rcases execRet_eq_next.mp h with ⟨w, s', hp, rfl⟩ | ⟨hp, rfl⟩
      · obtain ⟨_, -, rfl⟩ := pop_eq_some hp
        exact nomatch hr.symm.trans hf
      · cases hf
        exact ⟨rfl, .inl ⟨rfl, rfl, pop_eq_none.mp hp⟩⟩
    · rcases execCall_eq_next.mp h with ⟨s', hp, rfl⟩ | ⟨hp, rfl⟩
      · obtain ⟨_, rfl⟩ := push_eq_some hp
        exact nomatch hr.symm.trans hf
      · cases hf
        exact ⟨rfl, .inr (.inl ⟨rfl, ⟨_, rfl⟩, push_eq_none.mp hp⟩)⟩
    · rcases execDrw_eq_next.mp h with ⟨hb, rfl⟩ | ⟨-, rfl⟩
      · cases hf
        exact ⟨rfl, .inr (.inr (.inl ⟨x, y, n, rfl, rfl, spriteOutOfBounds_eq_true.mp hb⟩))⟩
      · exact nomatch hr.symm.trans hf
    · have h' : complete r u = .next t := e.symm.trans h
      rw [complete_eq_next.mp h'] at hf
      exact nomatch (hu.trans hr).symm.trans hf

/-- The fields no instruction writes, completing or faulting. -/
def KeepsUnwritten (s t : State) : Prop :=
  t.dt = s.dt ∧ t.st = s.st ∧ t.mem = s.mem ∧ t.keys = s.keys ∧ t.stepped = s.stepped ∧ t.params = s.params

theorem unimplemented_keeps {op : Word} (h : unimplemented op s = .next t) : KeepsUnwritten s t := by
  rcases unimplemented_eq_next.mp h with ⟨-, rfl⟩ | ⟨-, rfl⟩ <;> exact ⟨rfl, rfl, rfl, rfl, rfl, rfl⟩

theorem skipIf_keeps {c : Bool} (h : skipIf c s = .next t) : KeepsUnwritten s t := by
  rw [skipIf_eq_next.mp h]; exact ⟨rfl, rfl, rfl, rfl, rfl, rfl⟩

theorem writeResultAndFlag_keeps {x : Nibble} {res f : Byte}
    (h : complete false (s.writeResultAndFlag x res f) = .next t) : KeepsUnwritten s t := by
  rw [complete_eq_next.mp h]
  exact ⟨by simp, by simp, by simp, by simp, by simp, by simp⟩

theorem exec_keeps (i : Instr) (h : exec i s = .next t) : KeepsUnwritten s t := by
  have hc : ∀ {r : Bool} {u : State}, complete r u = .next t → KeepsUnwritten s u → KeepsUnwritten s t := by
    intro r u hu hk
    rw [complete_eq_next.mp hu]
    exact hk
  have ok : ∀ {u : State}, u.dt = s.dt → u.st = s.st → u.mem = s.mem → u.keys = s.keys → u.stepped = s.stepped →
      u.params = s.params → KeepsUnwritten s u := fun a b c d e f => ⟨a, b, c, d, e, f⟩
  cases i with
  | cls => exact hc h (ok rfl rfl rfl rfl rfl rfl)
  | ret =>
    rcases execRet_eq_next.mp h with ⟨w, s', hp, rfl⟩ | ⟨-, rfl⟩
    · obtain ⟨_, -, rfl⟩ := pop_eq_some hp
      exact ok rfl rfl rfl rfl rfl rfl
    · exact ok rfl rfl rfl rfl rfl rfl
  | call nnn =>
    rcases execCall_eq_next.mp h with ⟨s', hp, rfl⟩ | ⟨-, rfl⟩
    · obtain ⟨_, rfl⟩ := push_eq_some hp
      exact ok rfl rfl rfl rfl rfl rfl
    · exact ok rfl rfl rfl rfl rfl rfl
  | jp nnn => exact hc h (ok rfl rfl rfl rfl rfl rfl)
  | seImm x kk => exact skipIf_keeps h
  | sneImm x kk => exact skipIf_keeps h
  | seReg x y => exact skipIf_keeps h
  | sneReg x y => exact skipIf_keeps h
  | ldImm x kk => exact hc h (ok rfl rfl rfl rfl rfl rfl)
  | addImm x kk => exact hc h (ok rfl rfl rfl rfl rfl rfl)
  | ldReg x y => exact hc h (ok rfl rfl rfl rfl rfl rfl)
  | orReg x y => exact hc h (ok rfl rfl rfl rfl rfl rfl)
  | andReg x y => exact hc h (ok rfl rfl rfl rfl rfl rfl)
  | xorReg x y => exact hc h (ok rfl rfl rfl rfl rfl rfl)
  | addReg x y => exact writeResultAndFlag_keeps h
  | subReg x y => exact writeResultAndFlag_keeps h
  | ldI nnn => exact hc h (ok rfl rfl rfl rfl rfl rfl)
  | drw x y n =>
    rcases execDrw_eq_next.mp h with ⟨-, rfl⟩ | ⟨-, rfl⟩ <;> exact ok rfl rfl rfl rfl rfl rfl
  | sys nnn => exact unimplemented_keeps h
  | shr x y => exact unimplemented_keeps h
  | subn x y => exact unimplemented_keeps h
  | shl x y => exact unimplemented_keeps h
  | jpV0 nnn => exact unimplemented_keeps h
  | rnd x kk => exact unimplemented_keeps h
  | skp x => exact unimplemented_keeps h
  | sknp x => exact unimplemented_keeps h
  | ldVxDT x => exact unimplemented_keeps h
  | ldVxK x => exact unimplemented_keeps h
  | ldDTVx x => exact unimplemented_keeps h
  | ldSTVx x => exact unimplemented_keeps h
  | addIVx x => exact unimplemented_keeps h
  | ldFVx x => exact unimplemented_keeps h
  | ldBVx x => exact unimplemented_keeps h
  | ldMemVx x => exact unimplemented_keeps h
  | ldVxMem x => exact unimplemented_keeps h

end Sys2Proof.Machine
end

