-- ==== Sys2Proof/Laws/PerInstr.lean ====
section
/-! SUPPORT. Statements about every instruction as syntax, one lemma per constructor. Family RoundTrip: the word of a
well-formed instruction decodes to it, with every operand at every value (30_encoding.md R70). -/

namespace Sys2Proof.Laws.RoundTrip

/-- The word of a well-formed instruction decodes to it. -/
def Statement (i : Instr) : Prop := i.wellFormed = true → decode (encode i) = some i

theorem wordPNNN_ne_of_ne {nnn nnn' : Addr} (h : nnn ≠ nnn') : wordPNNN 0#4 nnn ≠ wordPNNN 0#4 nnn' := fun e =>
  h (by rw [← fieldNNN_wordPNNN 0#4 nnn, e, fieldNNN_wordPNNN])

theorem cls : Statement (.cls) := fun _ => by decide

theorem ret : Statement (.ret) := fun _ => by decide

theorem sys (nnn : Addr) : Statement (.sys nnn) := by
  intro h
  simp only [Instr.wellFormed, Bool.and_eq_true, bne_iff_ne] at h
  have h1 : wordPNNN 0#4 nnn ≠ 0x00E0#16 := wordPNNN_ne_of_ne h.1
  have h2 : wordPNNN 0#4 nnn ≠ 0x00EE#16 := wordPNNN_ne_of_ne h.2
  simp [encode, decode, decodeFamily0, h1, h2]

theorem jp (nnn : Addr) : Statement (.jp nnn) := fun _ => by simp [encode, decode]

theorem call (nnn : Addr) : Statement (.call nnn) := fun _ => by simp [encode, decode]

theorem seImm (x : Nibble) (kk : Byte) : Statement (.seImm x kk) := fun _ => by simp [encode, decode]

theorem sneImm (x : Nibble) (kk : Byte) : Statement (.sneImm x kk) := fun _ => by simp [encode, decode]

theorem seReg (x y : Nibble) : Statement (.seReg x y) := fun _ => by simp [encode, decode]

theorem ldImm (x : Nibble) (kk : Byte) : Statement (.ldImm x kk) := fun _ => by simp [encode, decode]

theorem addImm (x : Nibble) (kk : Byte) : Statement (.addImm x kk) := fun _ => by simp [encode, decode]

theorem ldReg (x y : Nibble) : Statement (.ldReg x y) := fun _ => by simp [encode, decode, decodeFamily8]

theorem orReg (x y : Nibble) : Statement (.orReg x y) := fun _ => by simp [encode, decode, decodeFamily8]

theorem andReg (x y : Nibble) : Statement (.andReg x y) := fun _ => by simp [encode, decode, decodeFamily8]

theorem xorReg (x y : Nibble) : Statement (.xorReg x y) := fun _ => by simp [encode, decode, decodeFamily8]

theorem addReg (x y : Nibble) : Statement (.addReg x y) := fun _ => by simp [encode, decode, decodeFamily8]

theorem subReg (x y : Nibble) : Statement (.subReg x y) := fun _ => by simp [encode, decode, decodeFamily8]

theorem shr (x y : Nibble) : Statement (.shr x y) := fun _ => by simp [encode, decode, decodeFamily8]

theorem subn (x y : Nibble) : Statement (.subn x y) := fun _ => by simp [encode, decode, decodeFamily8]

theorem shl (x y : Nibble) : Statement (.shl x y) := fun _ => by simp [encode, decode, decodeFamily8]

theorem sneReg (x y : Nibble) : Statement (.sneReg x y) := fun _ => by simp [encode, decode]

theorem ldI (nnn : Addr) : Statement (.ldI nnn) := fun _ => by simp [encode, decode]

theorem jpV0 (nnn : Addr) : Statement (.jpV0 nnn) := fun _ => by simp [encode, decode]

theorem rnd (x : Nibble) (kk : Byte) : Statement (.rnd x kk) := fun _ => by simp [encode, decode]

theorem drw (x y n : Nibble) : Statement (.drw x y n) := fun _ => by simp [encode, decode]

theorem skp (x : Nibble) : Statement (.skp x) := fun _ => by simp [encode, decode, decodeFamilyE]

theorem sknp (x : Nibble) : Statement (.sknp x) := fun _ => by simp [encode, decode, decodeFamilyE]

theorem ldVxDT (x : Nibble) : Statement (.ldVxDT x) := fun _ => by simp [encode, decode, decodeFamilyF]

theorem ldVxK (x : Nibble) : Statement (.ldVxK x) := fun _ => by simp [encode, decode, decodeFamilyF]

theorem ldDTVx (x : Nibble) : Statement (.ldDTVx x) := fun _ => by simp [encode, decode, decodeFamilyF]

theorem ldSTVx (x : Nibble) : Statement (.ldSTVx x) := fun _ => by simp [encode, decode, decodeFamilyF]

theorem addIVx (x : Nibble) : Statement (.addIVx x) := fun _ => by simp [encode, decode, decodeFamilyF]

theorem ldFVx (x : Nibble) : Statement (.ldFVx x) := fun _ => by simp [encode, decode, decodeFamilyF]

theorem ldBVx (x : Nibble) : Statement (.ldBVx x) := fun _ => by simp [encode, decode, decodeFamilyF]

theorem ldMemVx (x : Nibble) : Statement (.ldMemVx x) := fun _ => by simp [encode, decode, decodeFamilyF]

theorem ldVxMem (x : Nibble) : Statement (.ldVxMem x) := fun _ => by simp [encode, decode, decodeFamilyF]

end Sys2Proof.Laws.RoundTrip
end

