-- ==== Sys2Proof/Laws/Step.lean ====
section
/-! SUPPORT. Everything one step can do, said once. -/

namespace Sys2Proof.Machine

variable {s t : State}

theorem fetchInBounds_iff {pc : Word} : fetchInBounds pc = true ↔ pc.toNat + 1 < 4096 :=
  decide_eq_true_iff

theorem fetchInBounds_eq_false {pc : Word} : fetchInBounds pc = false ↔ 4096 ≤ pc.toNat + 1 :=
  decide_eq_false_iff_not.trans Nat.not_lt

/-- Fetch inside RAM, as step calls it (40_cycle.md R75). -/
theorem fetch_ok (h : s.pc.toNat + 1 < 4096) : fetch (beginStep s) = .ok (nextWord s, afterFetch s) := by
  have : fetchInBounds (beginStep s).pc = true := fetchInBounds_iff.mpr h
  unfold fetch
  rw [if_pos this]
  rfl

/-- Fetch outside RAM, as step calls it (40_cycle.md R76). -/
theorem fetch_error (h : 4096 ≤ s.pc.toNat + 1) : fetch (beginStep s) = .error (.fetchOutOfBounds s.pc) := by
  have : fetchInBounds (beginStep s).pc = false := fetchInBounds_eq_false.mpr h
  unfold fetch
  rw [this]
  rfl

theorem instrAddr_afterFetch : instrAddr (afterFetch s) = s.pc := by
  simp [instrAddr, afterFetch]

/-- The three ways a running session's step goes. -/
theorem step_of_running (hr : s.status = .running) :
    (4096 ≤ s.pc.toNat + 1 ∧ step s = trap (.fetchOutOfBounds s.pc) (beginStep s)) ∨
    (s.pc.toNat + 1 < 4096 ∧ decode (nextWord s) = none ∧
      step s = trap (.decodeFailure (nextWord s) s.pc) (afterFetch s)) ∨
    (s.pc.toNat + 1 < 4096 ∧ ∃ i, decode (nextWord s) = some i ∧ step s = exec i (afterFetch s)) := by
  unfold step
  rw [hr]
  by_cases hb : s.pc.toNat + 1 < 4096
  · simp only [fetch_ok hb]
    cases hd : decode (nextWord s) with
    | none => exact .inr (.inl ⟨hb, rfl, by simp [failDecode, instrAddr_afterFetch]⟩)
    | some i => exact .inr (.inr ⟨hb, i, rfl, rfl⟩)
  · have hb : 4096 ≤ s.pc.toNat + 1 := by omega
    simp only [fetch_error hb]
    exact .inl ⟨hb, trivial⟩

theorem step_of_halted {f : FaultRecord} (h : s.status = .halted f) : step s = .fault (.sessionHalted f) := by
  unfold step; rw [h]

/-- A session that steps was running. -/
theorem running_of_step (h : step s = .next t) : s.status = .running := by
  cases hs : s.status with
  | running => rfl
  | halted f => rw [step_of_halted hs] at h; exact nomatch h

/-- Everything a step that answers a next state can have done. -/
theorem step_cases (h : step s = .next t) :
    s.status = .running ∧
    ((4096 ≤ s.pc.toNat + 1 ∧ t = raiseFault (.fetchOutOfBounds s.pc) (beginStep s)) ∨
     (s.pc.toNat + 1 < 4096 ∧ decode (nextWord s) = none ∧
       t = raiseFault (.decodeFailure (nextWord s) s.pc) (afterFetch s)) ∨
     (s.pc.toNat + 1 < 4096 ∧ ∃ i, decode (nextWord s) = some i ∧ exec i (afterFetch s) = .next t)) := by
  refine ⟨running_of_step h, ?_⟩
  rcases step_of_running (running_of_step h) with ⟨hb, e⟩ | ⟨hb, hd, e⟩ | ⟨hb, i, hd, e⟩
  · exact .inl ⟨hb, trap_eq_next.mp (e ▸ h)⟩
  · exact .inr (.inl ⟨hb, hd, trap_eq_next.mp (e ▸ h)⟩)
  · exact .inr (.inr ⟨hb, i, hd, e ▸ h⟩)

end Sys2Proof.Machine
end

