-- ==== Sys2Proof/Tests/Slice0.lean ====
section
/-! SUPPORT. Tests: expected values come from 95_test_vectors.md (the id stands in each docstring) or from the patterns of
30_encoding.md R62, never from the model. After them, one witness per statement with hypotheses. -/

namespace Sys2Proof.Tests

open Sys2Proof Sys2Proof.Machine

-- one theorem after another: many kernel evaluations at once want more threads than the memory limit leaves
set_option Elab.async false

/-! ### Helpers -/

/-- The state after construction under `Nop`, with the flag order named. -/
def base : State := State.construct ⟨.nop, .flagThenResult, fontData⟩

/-- The same under the other flag order. -/
def baseRF : State := State.construct ⟨.nop, .resultThenFlag, fontData⟩

/-- The same under the fault policy. -/
def baseFault : State := State.construct ⟨.fault, .flagThenResult, fontData⟩

/-- A state with some general registers given. -/
def regs (l : List (Nibble × Byte)) (s : State := base) : State := l.foldl (fun s p => s.writeV p.1 p.2) s

/-- A state with some bytes of RAM given. -/
def bytes (a : Nat) (l : List Byte) (s : State := base) : State :=
  { s with mem := Memory.writeBytes s.params.fontData s.mem a l }

/-- A state with some pixels on. -/
def pixels (l : List (Nat × Nat)) (s : State := base) : State :=
  { s with disp := Vector.ofFn fun y => l.foldl (fun w p => if p.2 = y.val then w ||| BitVec.twoPow 64 p.1 else w) 0 }

/-- A state with its `pc` moved. -/
def at_ (a : Word) (s : State := base) : State := { s with pc := a }

/-- A state with an index register. -/
def idx (w : Word) (s : State := base) : State := { s with i := w }

/-- A state with n occupied slots, each holding 0x202. -/
def stacked (n : Fin 17) (s : State := base) : State := { s with sp := n, stack := Vector.replicate 16 0x202 }

/-- An outcome is a next state. -/
def isNext (o : Result) : Bool :=
  match o with
  | .next _ => true
  | .fault _ => false
  | .refused _ => false

/-- The next state of an outcome, for one that has it. -/
def nextOf (o : Result) : State :=
  match o with
  | .next t => t
  | .fault _ => base
  | .refused _ => base

theorem eq_next {o : Result} (h : isNext o = true) : o = .next (nextOf o) := by
  cases o with
  | next t => rfl
  | fault f => exact nomatch h
  | refused r => exact nomatch h

/-- One step of a word placed at `pc` answers a next state of which `p` holds. -/
def runs (s : State) (w : Nat) (p : State → Bool) : Bool :=
  let o := step (s.withFetchWord 16 w)
  isNext o && p (nextOf o)

/-- Exactly the listed pixels are on. -/
def onlyOn (t : State) (l : List (Nat × Nat)) : Bool :=
  (List.range 32).all fun y => (List.range 64).all fun x => Display.pixel t.disp x y == l.contains (x, y)

/-- A completed step: still running, with this redraw value and this `pc`. -/
def done (t : State) (pc : Word) (redraw : Bool) : Bool :=
  decide (t.status = .running) && decide (t.pc = pc) && decide (t.redraw = some redraw)

/-- A step that halted with this record and this `pc`. -/
def halts (t : State) (pc : Word) (f : FaultRecord) : Bool :=
  decide (t.status = .halted f) && decide (t.pc = pc) && decide (t.redraw = none)

/-- A driver operation was refused for this reason. -/
def refusedWith (o : DriverResult) (r : Refusal) : Bool :=
  match o with
  | .next _ => false
  | .fault _ => false
  | .refused r' => decide (r' = r)

/-- A driver operation answered this reply, and a state of which `p` holds. -/
def replies (o : DriverResult) (r : Reply) (p : State → Bool) : Bool :=
  match o with
  | .next (t, r') => decide (r' = r) && p t
  | .fault _ => false
  | .refused _ => false

/-! ### Well-formed instructions: the one check, refused at both of its edges -/

theorem test_wf_sys_cls_refused : (Instr.sys 0x0E0).wellFormed = false := by decide
theorem test_wf_sys_ret_refused : (Instr.sys 0x0EE).wellFormed = false := by decide
theorem test_wf_sys_neighbours : (Instr.sys 0x0DF).wellFormed = true ∧ (Instr.sys 0x0E1).wellFormed = true ∧
    (Instr.sys 0x1E0).wellFormed = true ∧ (Instr.sys 0xFEE).wellFormed = true := by decide

/-! ### Decoding: every constructor, its word written out bit by bit from R62 -/

/-- L2-1, family 0. -/
theorem test_decode_family0 :
    decode 0b0000000011100000 = some .cls ∧ decode 0b0000000011101110 = some .ret ∧
    decode 0b0000000000000000 = some (.sys 0x000) ∧ decode 0b0000000011100001 = some (.sys 0x0E1) ∧
    decode 0b0000000111100000 = some (.sys 0x1E0) ∧ decode 0b0000111111101110 = some (.sys 0xFEE) := by decide +kernel

/-- L2-1, families 1 to 7. -/
theorem test_decode_families1To7 :
    decode 0b0001111111111111 = some (.jp 0xFFF) ∧ decode 0b0010101010111100 = some (.call 0xABC) ∧
    decode 0b0011111100000000 = some (.seImm 0xF 0x00) ∧ decode 0b0100101001010101 = some (.sneImm 0xA 0x55) ∧
    decode 0b0101101010110000 = some (.seReg 0xA 0xB) ∧ decode 0b0110000100100011 = some (.ldImm 1 0x23) ∧
    decode 0b0111111111111111 = some (.addImm 0xF 0xFF) := by decide +kernel

/-- L2-1, family 8. -/
theorem test_decode_family8 :
    decode 0b1000101010110000 = some (.ldReg 0xA 0xB) ∧ decode 0b1000101010110001 = some (.orReg 0xA 0xB) ∧
    decode 0b1000101010110010 = some (.andReg 0xA 0xB) ∧ decode 0b1000101010110011 = some (.xorReg 0xA 0xB) ∧
    decode 0b1000101010110100 = some (.addReg 0xA 0xB) ∧ decode 0b1000101010110101 = some (.subReg 0xA 0xB) ∧
    decode 0b1000101010110110 = some (.shr 0xA 0xB) ∧ decode 0b1000101010110111 = some (.subn 0xA 0xB) ∧
    decode 0b1000101010111110 = some (.shl 0xA 0xB) := by decide +kernel

/-- L2-1, families 9 to E. -/
theorem test_decode_families9ToE :
    decode 0b1001101010110000 = some (.sneReg 0xA 0xB) ∧ decode 0b1010000100100011 = some (.ldI 0x123) ∧
    decode 0b1011000100100011 = some (.jpV0 0x123) ∧ decode 0b1100000111111111 = some (.rnd 1 0xFF) ∧
    decode 0b1101000100100011 = some (.drw 1 2 3) ∧ decode 0b1110001110011110 = some (.skp 3) ∧
    decode 0b1110001110100001 = some (.sknp 3) := by decide +kernel

/-- L2-1, family F. -/
theorem test_decode_familyF :
    decode 0b1111001100000111 = some (.ldVxDT 3) ∧ decode 0b1111001100001010 = some (.ldVxK 3) ∧
    decode 0b1111001100010101 = some (.ldDTVx 3) ∧ decode 0b1111001100011000 = some (.ldSTVx 3) ∧
    decode 0b1111001100011110 = some (.addIVx 3) ∧ decode 0b1111001100101001 = some (.ldFVx 3) ∧
    decode 0b1111001100110011 = some (.ldBVx 3) ∧ decode 0b1111001101010101 = some (.ldMemVx 3) ∧
    decode 0b1111001101100101 = some (.ldVxMem 3) := by decide +kernel

/-- L2-1, the decode failures it lists. -/
theorem test_decode_failures :
    ([0x5AB1, 0x5ABF, 0x8AB8, 0x8ABD, 0x8ABF, 0x9AB8, 0xE39F, 0xE3A0, 0xF308, 0xF366, 0xFFFF] : List Word).all
      (fun w => decode w == none) = true := by decide +kernel

/-- The bytes of a table word are read in the order RAM stores them: the first byte holds bits 15:8 (R42). -/
theorem test_decode_table_word : decodeTableWord 16 0xD123 = some (.drw 1 2 3) ∧ decodeTableWord 16 0x5AB1 = none := by
  decide +kernel
theorem test_decode_bytes : decodeBytes [0xD1, 0x23, 0xAA] = .ok (.drw 1 2 3, [0xAA]) := by rfl
theorem test_decode_bytes_short : decodeBytes [0xD1] = .error .truncated := by rfl

/-! ### Fetch -/

/-- FE-3, FA-6: the last word of RAM. -/
theorem test_fetch_last_word : runs (at_ 0xFFE) 0x6001 (fun t => done t 0x1000 false && t.readV 0 == 1) = true := by
  decide +kernel
/-- FA-8: an odd `pc` is legal. -/
theorem test_fetch_odd_pc : runs (at_ 0x201) 0x6001 (fun t => done t 0x203 false && t.readV 0 == 1) = true := by
  decide +kernel
/-- FE-4, FA-7. -/
theorem test_fetch_straddling_the_end :
    halts (nextOf (step (at_ 0xFFF))) 0xFFF (.fetchOutOfBounds 0xFFF) = true := by decide +kernel
/-- FE-5. -/
theorem test_fetch_past_the_end :
    halts (nextOf (step (at_ 0x1000))) 0x1000 (.fetchOutOfBounds 0x1000) = true := by decide +kernel
/-- FA-1. -/
theorem test_decode_failure_halts :
    runs base 0x5121 (fun t => halts t 0x202 (.decodeFailure 0x5121 0x200)) = true := by decide +kernel
/-- FA-9: the decode failure comes before the policy. -/
theorem test_decode_failure_first :
    runs baseFault 0x8008 (fun t => halts t 0x202 (.decodeFailure 0x8008 0x200)) = true := by decide +kernel

/-! ### Control flow -/

/-- CF-1. -/
theorem test_jp : runs base 0x1234 (fun t => done t 0x234 false) = true := by decide +kernel
/-- CF-4: the last free slot. -/
theorem test_call_last_slot : runs (stacked 15) 0x2300
    (fun t => done t 0x300 false && t.sp == 16 && t.stack[15] == 0x202) = true := by decide +kernel
/-- CF-5. -/
theorem test_call_full : runs (stacked 16) 0x2300
    (fun t => halts t 0x202 (.stackOverflow 0x2300 0x200) && t.sp == 16) = true := by decide +kernel
/-- CF-6, with 0x206 pushed. -/
theorem test_ret : runs { base with sp := 1, stack := base.stack.set 0 0x206 } 0x00EE
    (fun t => done t 0x206 false && t.sp == 0 && t.stack[0] == 0x206) = true := by decide +kernel
/-- CF-8: a stale slot does not help. -/
theorem test_ret_empty : runs { base with stack := base.stack.set 0 0x206 } 0x00EE
    (fun t => halts t 0x202 (.stackUnderflow 0x00EE 0x200)) = true := by decide +kernel
/-- CF-9. -/
theorem test_seImm_taken : runs (regs [(3, 0x2A)]) 0x332A (fun t => done t 0x204 false) = true := by decide +kernel
/-- CF-10. -/
theorem test_seImm_not_taken : runs (regs [(3, 0x2B)]) 0x332A (fun t => done t 0x202 false) = true := by decide +kernel
/-- CF-11. -/
theorem test_sneImm_not_taken : runs (regs [(3, 0x2A)]) 0x432A (fun t => done t 0x202 false) = true := by decide +kernel
/-- CF-12. -/
theorem test_sneImm_taken : runs (regs [(3, 0x2B)]) 0x432A (fun t => done t 0x204 false) = true := by decide +kernel
/-- CF-13. -/
theorem test_seReg_taken : runs (regs [(1, 7), (2, 7)]) 0x5120 (fun t => done t 0x204 false) = true := by decide +kernel
/-- CF-14. -/
theorem test_seReg_not_taken : runs (regs [(1, 7), (2, 8)]) 0x5120 (fun t => done t 0x202 false) = true := by decide +kernel
/-- CF-15. -/
theorem test_sneReg_taken : runs (regs [(1, 7), (2, 8)]) 0x9120 (fun t => done t 0x204 false) = true := by decide +kernel
/-- CF-16. -/
theorem test_sneReg_not_taken : runs (regs [(1, 7), (2, 7)]) 0x9120 (fun t => done t 0x202 false) = true := by decide +kernel
/-- CF-21: a taken skip at the end of RAM. -/
theorem test_skip_to_the_end : runs (at_ 0xFFC) 0x3000 (fun t => done t 0x1000 false) = true := by decide +kernel

/-! ### Loads and arithmetic -/

/-- AL-1. -/
theorem test_ldImm : runs base 0x6A2F (fun t => done t 0x202 false && t.readV 0xA == 0x2F) = true := by decide +kernel
/-- AL-3, L1-3. -/
theorem test_addImm_wraps : runs (regs [(1, 0xFE)]) 0x7103
    (fun t => done t 0x202 false && t.readV 1 == 0x01 && t.readV 0xF == 0) = true := by decide +kernel
/-- AL-4: the flag stands. -/
theorem test_addImm_keeps_flag : runs (regs [(1, 0x10), (0xF, 1)]) 0x71FF
    (fun t => t.readV 1 == 0x0F && t.readV 0xF == 1) = true := by decide +kernel
/-- AL-6. -/
theorem test_ldReg : runs (regs [(2, 0x55)]) 0x8120 (fun t => done t 0x202 false && t.readV 1 == 0x55) = true := by
  decide +kernel
/-- AL-7. -/
theorem test_or : runs (regs [(1, 0xF0), (2, 0x0F), (0xF, 1)]) 0x8121
    (fun t => done t 0x202 false && t.readV 1 == 0xFF && t.readV 0xF == 1) = true := by decide +kernel
/-- AL-8. -/
theorem test_and : runs (regs [(1, 0xF0), (2, 0x3C)]) 0x8122
    (fun t => done t 0x202 false && t.readV 1 == 0x30) = true := by decide +kernel
/-- AL-9. -/
theorem test_xor : runs (regs [(1, 0xF0), (2, 0x3C)]) 0x8123
    (fun t => done t 0x202 false && t.readV 1 == 0xCC) = true := by decide +kernel
/-- AL-11. -/
theorem test_addReg_carry : runs (regs [(1, 0xC8), (2, 0x64)]) 0x8124
    (fun t => done t 0x202 false && t.readV 1 == 0x2C && t.readV 0xF == 1) = true := by decide +kernel
/-- AL-16: VF as an operand is read before it is written. -/
theorem test_addReg_flag_operand : runs (regs [(1, 0x10), (0xF, 0x20)]) 0x81F4
    (fun t => t.readV 1 == 0x30 && t.readV 0xF == 0) = true := by decide +kernel
/-- AL-18. -/
theorem test_subReg_borrow : runs (regs [(1, 0x2C), (2, 0x64)]) 0x8125
    (fun t => done t 0x202 false && t.readV 1 == 0xC8 && t.readV 0xF == 0) = true := by decide +kernel
/-- AL-19: equal operands do not borrow. -/
theorem test_subReg_equal : runs (regs [(1, 0x42), (2, 0x42)]) 0x8125
    (fun t => t.readV 1 == 0 && t.readV 0xF == 1) = true := by decide +kernel
/-- FO-1, FO-2: the carry of 8FF4 in both orders. -/
theorem test_addReg_flag_order :
    runs (regs [(0xF, 0x80)]) 0x8FF4 (fun t => t.readV 0xF == 0) = true ∧
    runs (regs [(0xF, 0x80)] baseRF) 0x8FF4 (fun t => t.readV 0xF == 1) = true := by decide +kernel
/-- FO-5, FO-6: the same of 8F15. -/
theorem test_subReg_flag_order :
    runs (regs [(0xF, 5), (1, 3)]) 0x8F15 (fun t => t.readV 0xF == 2) = true ∧
    runs (regs [(0xF, 5), (1, 3)] baseRF) 0x8F15 (fun t => t.readV 0xF == 1) = true := by decide +kernel

/-! ### Index and display -/

/-- DI-2. -/
theorem test_ldI : runs (idx 0x123) 0xAFFF (fun t => done t 0x202 false && t.i == 0xFFF) = true := by decide +kernel
/-- DI-3. -/
theorem test_cls : runs (regs [(0xF, 1)] (pixels [(0, 0), (63, 31), (10, 5)])) 0x00E0
    (fun t => done t 0x202 true && onlyOn t [] && t.readV 0xF == 1) = true := by decide +kernel
/-- DI-6: the origin wraps, bit 7 is leftmost. -/
theorem test_drw_origin : runs (regs [(0, 0x41), (1, 0x21)] (idx 0x300 (bytes 0x300 [0x81]))) 0xD011
    (fun t => done t 0x202 true && onlyOn t [(1, 1), (8, 1)] && t.readV 0xF == 0) = true := by decide +kernel
/-- DI-10: a collision. -/
theorem test_drw_collision : runs (idx 0x300 (bytes 0x300 [0xC0] (pixels [(1, 0), (5, 0)]))) 0xD011
    (fun t => done t 0x202 true && onlyOn t [(0, 0), (5, 0)] && t.readV 0xF == 1) = true := by decide +kernel
/-- DI-8: a row past the bottom edge is clipped. -/
theorem test_drw_clip_row : runs (regs [(1, 0x1F)] (idx 0x300 (bytes 0x300 [0x80, 0x80]))) 0xD012
    (fun t => onlyOn t [(0, 31)]) = true := by decide +kernel
/-- DI-7: a column past the right edge is clipped. -/
theorem test_drw_clip_column : runs (regs [(0, 0x3C)] (idx 0x300 (bytes 0x300 [0xFF]))) 0xD011
    (fun t => onlyOn t [(60, 0), (61, 0), (62, 0), (63, 0)]) = true := by decide +kernel
/-- DI-12: the origin is read from VF before VF is cleared. -/
theorem test_drw_flag_origin : runs (regs [(0xF, 5)] (idx 0x300 (bytes 0x300 [0x80]))) 0xDF11
    (fun t => onlyOn t [(5, 0)] && t.readV 0xF == 0) = true := by decide +kernel
/-- DI-16: all the bytes are checked, also those of a clipped row. -/
theorem test_drw_bounds : runs (regs [(1, 0x1F), (0xF, 1)] (idx 0xFFE)) 0xD013
    (fun t => halts t 0x202 (.spriteOutOfBounds 0xD013 0x200 0xFFE 3) && onlyOn t [] && t.readV 0xF == 1) = true := by
  decide +kernel
/-- DI-18: n = 0 reads nothing. -/
theorem test_drw_empty : runs (regs [(0xF, 1)] (idx 0xFFF)) 0xD000
    (fun t => done t 0x202 true && onlyOn t [] && t.readV 0xF == 0) = true := by decide +kernel

/-! ### The seventeen without effect -/

/-- L2-9's start state. -/
def unStart (s : State) : State := regs [(1, 0x7B)] (idx 0x300 s)

/-- L2-9's words, UN-1 to UN-18. -/
def unWords : List Nat :=
  [0x0123, 0x01E0, 0x8126, 0x8127, 0x812E, 0xB300, 0xC1FF, 0xE19E, 0xE1A1] ++
  [0xF107, 0xF10A, 0xF115, 0xF118, 0xF11E, 0xF129, 0xF133, 0xF155, 0xF165]

/-- L2-9 under `Nop`: only `pc` moves. -/
theorem test_unimplemented_nop : unWords.all (fun w => runs (unStart base) w fun t =>
    done t 0x202 false && t.i == 0x300 && t.sp == 0 && t.dt == 0 && t.st == 0 && t.readV 1 == 0x7B && t.readV 0 == 0 &&
    t.readV 0xF == 0 && t.readByte 0x300 == 0) = true := by decide +kernel
/-- L2-9 under `Fault`. -/
theorem test_unimplemented_fault : unWords.all (fun w => runs (unStart baseFault) w fun t =>
    halts t 0x202 (.unimplemented (BitVec.ofNat 16 w) 0x200)) = true := by decide +kernel

/-! ### Parameters, reset, driver -/

/-- 00_scope.md R7: the constraints among the sizes. -/
theorem test_parameters : ramSize = 4096 ∧ programStart + romCapacity = ramSize ∧ romCapacity = 3584 ∧
    fontData.size = 80 ∧ fontBase + 80 ≤ programStart ∧ programStart < ramSize ∧ ramSize ≤ 2 ^ 16 := by decide
/-- 10_state.md R37: reset memory is in the canonical form. -/
theorem test_reset_memory_wf : Memory.wf State.reset.params.fontData State.reset.mem := Memory.nil_wf
/-- 20_memory.md R44: glyph 0 and the last byte of glyph F. -/
theorem test_reset_font : [0, 1, 2, 3, 4, 79].map State.reset.readByte = [0xF0, 0x90, 0x90, 0x90, 0xF0, 0x80] := by decide
/-- DI-13: DRW reads glyph 0 of the font. -/
theorem test_drw_font : runs base 0xD005 (fun t => onlyOn t
    ([(0, 0), (1, 0), (2, 0), (3, 0), (0, 1), (3, 1), (0, 2), (3, 2), (0, 3), (3, 3)] ++
     [(0, 4), (1, 4), (2, 4), (3, 4)])) = true := by decide +kernel
/-- 20_memory.md R44: `FONT_DATA` is a parameter; DRW draws the bytes of the font given. -/
theorem test_drw_other_font : runs (State.construct ⟨.nop, .flagThenResult, Vector.replicate 80 0x80⟩) 0xD002
    (fun t => onlyOn t [(0, 0), (0, 1)]) = true := by decide +kernel
/-- FA-10. -/
theorem test_halted_step :
    step { base with status := .halted (.fetchOutOfBounds 0xFFF) } = .fault (.sessionHalted (.fetchOutOfBounds 0xFFF)) := rfl
/-- H-4: a second load keeps the bytes it does not reach. -/
theorem test_load_rom : replies (drive (.loadRom [0x11]) (bytes 0x200 [0xAA, 0xBB, 0xCC])) .romOk
    (fun t => t.readByte 0x200 == 0x11 && t.readByte 0x201 == 0xBB && t.readByte 0x202 == 0xCC && t.pc == 0x200) = true := by
  decide +kernel
/-- H-10. -/
theorem test_load_rom_late : refusedWith (drive (.loadRom []) { base with stepped := true }) .loadRomAfterFirstStep = true := by
  decide +kernel
/-- H-6. -/
theorem test_tick : replies (drive .tickTimers { base with dt := 2, st := 1 }) .unit
    (fun t => t.dt == 1 && t.st == 0) = true := by decide +kernel
/-- H-7. -/
theorem test_set_key : replies (drive (.setKey 5 true) base) .unit (fun t => t.keys[5] && !t.keys[4]) = true := by
  decide +kernel
/-- H-8. -/
theorem test_set_key_16 : refusedWith (drive (.setKey 16 true) base) (.keyIndexOutOfRange 16) = true := by decide +kernel
/-- H-9. -/
theorem test_get_pixel : replies (drive (.getPixel 63 31) (pixels [(63, 31)])) (.pixel true) (fun _ => true) = true := by
  decide +kernel

/-! ### Witnesses: states and operands that meet the hypotheses of each statement, at the edges of their ranges -/

/-- A placed word. -/
def placed (w : Nat) (s : State := base) : State := s.withFetchWord 16 w

theorem stepsTo {s : State} (h : isNext (step s) = true) : step s = .next (nextOf (step s)) := eq_next h

theorem witness_EncodedInstructionsDecodeBack :
    (Instr.sys 0xFFF).wellFormed = true ∧ (Instr.drw 0xF 0xF 0xF).wellFormed = true := by decide
theorem witness_DecodedWordsEncodeBack : decode 0xFF65 = some (.ldVxMem 0xF) ∧ decode 0x0000 = some (.sys 0) := by
  decide +kernel
/-- One word in each of the families 1 to F, with the fields the statement asks for. -/
theorem witness_FamiliesDecodeOnTheirSelector : ∀ p ∈ (List.range 16).tail,
    (0xA : Nibble).toNat = (BitVec.ofNat 16 (p * 4096 + 0xABF)).toNat / 256 % 16 ∧
    (0xB : Nibble).toNat = (BitVec.ofNat 16 (p * 4096 + 0xABF)).toNat / 16 % 16 ∧
    (0xF : Nibble).toNat = (BitVec.ofNat 16 (p * 4096 + 0xABF)).toNat % 16 ∧
    (0xBF : Byte).toNat = (BitVec.ofNat 16 (p * 4096 + 0xABF)).toNat % 256 ∧
    (0xABF : Addr).toNat = (BitVec.ofNat 16 (p * 4096 + 0xABF)).toNat % 4096 ∧
    (BitVec.ofNat 16 (p * 4096 + 0xABF)).toNat / 4096 = p := by decide +kernel
theorem witness_FamilyZero : ∀ k ∈ [0x000, 0x0DF, 0x0E0, 0x0E1, 0x0ED, 0x0EE, 0x0EF, 0xFFF],
    (BitVec.ofNat 16 k).toNat < 4096 ∧ (BitVec.ofNat 12 k).toNat = (BitVec.ofNat 16 k).toNat := by decide +kernel

/-- The last address a word can be fetched from. -/
theorem witness_StepRunsTheDecodedInstruction :
    (placed 0x00E0 (at_ 0xFFE)).status = .running ∧ (placed 0x00E0 (at_ 0xFFE)).pc.toNat + 1 < 4096 ∧
    decode (nextWord (placed 0x00E0 (at_ 0xFFE))) = some .cls := by decide +kernel
theorem witness_FetchIsBigEndian : (at_ 0xFFE).pc.toNat + 1 < 4096 ∧ (at_ 0x201).pc.toNat + 1 < 4096 := by decide +kernel
theorem witness_FetchOutsideRamHalts : (at_ 0xFFF).status = .running ∧ 4096 ≤ (at_ 0xFFF).pc.toNat + 1 ∧
    4096 ≤ (at_ 0xFFFF).pc.toNat + 1 := by decide +kernel
theorem witness_UndecodableWordHalts : (placed 0x5AB1 (at_ 0xFFE)).status = .running ∧
    (placed 0x5AB1 (at_ 0xFFE)).pc.toNat + 1 < 4096 ∧ decode (nextWord (placed 0x5AB1 (at_ 0xFFE))) = none := by
  decide +kernel
/-- A halted state for HaltedSessionHasNoMove. -/
def haltedState : State := nextOf (step (at_ 0xFFF))
theorem witness_HaltedSessionHasNoMove : haltedState.status = .halted (.fetchOutOfBounds 0xFFF) := by decide +kernel
theorem witness_EveryStepFinishes : base.status = .running := rfl

/-- A step that ends in the fault record f. -/
def StepsToFault (s : State) (f : FaultRecord) : Prop := ∃ t, step s = .next t ∧ t.status = .halted f

theorem stepsToFault {s : State} {f : FaultRecord}
    (h : isNext (step s) = true ∧ (nextOf (step s)).status = .halted f) : StepsToFault s f := ⟨_, stepsTo h.1, h.2⟩

/-- The six faults, each with a state that takes it: the hypotheses of FaultsArePrecise, and each clause of
EachFaultExactlyOnItsCondition. -/
theorem witness_faults_fetch : StepsToFault (at_ 0xFFF) (.fetchOutOfBounds 0xFFF) ∧ 4096 ≤ (at_ 0xFFF).pc.toNat + 1 :=
  ⟨stepsToFault (by decide +kernel), by decide +kernel⟩
theorem witness_faults_decode : StepsToFault (placed 0x5AB1) (.decodeFailure 0x5AB1 0x200) ∧
    decode (nextWord (placed 0x5AB1)) = none :=
  ⟨stepsToFault (by decide +kernel), by decide +kernel⟩
theorem witness_faults_underflow : StepsToFault (placed 0x00EE) (.stackUnderflow 0x00EE 0x200) ∧
    nextWord (placed 0x00EE) = 0x00EE ∧ (placed 0x00EE).sp.val = 0 :=
  ⟨stepsToFault (by decide +kernel), by decide +kernel⟩
theorem witness_faults_overflow : StepsToFault (placed 0x2FFF (stacked 16)) (.stackOverflow 0x2FFF 0x200) ∧
    (nextWord (placed 0x2FFF (stacked 16))).toNat / 4096 = 2 ∧ (placed 0x2FFF (stacked 16)).sp.val = 16 :=
  ⟨stepsToFault (by decide +kernel), by decide +kernel⟩
theorem witness_faults_sprite : StepsToFault (placed 0xD012 (idx 0xFFF)) (.spriteOutOfBounds 0xD012 0x200 0xFFF 2) ∧
    (nextWord (placed 0xD012 (idx 0xFFF))).toNat / 4096 = 13 ∧ 4096 ≤ (0xFFF : Word).toNat + (2 : Nibble).toNat - 1 :=
  ⟨stepsToFault (by decide +kernel), by decide +kernel⟩
theorem witness_faults_unimplemented : StepsToFault (placed 0xF165 baseFault) (.unimplemented 0xF165 0x200) ∧
    (placed 0xF165 baseFault).params.unimplPolicy = .fault ∧ decode (nextWord (placed 0xF165 baseFault)) = some (.ldVxMem 1) ∧
    (Instr.ldVxMem 1).row ∈ unimplementedRows :=
  ⟨stepsToFault (by decide +kernel), by decide +kernel⟩
/-- A record on each side of both equivalences of FaultCodesAndFields. -/
theorem witness_FaultCodesAndFields : (FaultRecord.decodeFailure 0xFFFF 0x200).code ≠ 4 ∧
    (FaultRecord.fetchOutOfBounds 0xFFF).code = 4 ∧ (FaultRecord.spriteOutOfBounds 0xD003 0x200 0xFFE 3).code = 5 := by decide

/-- A step that completes, on a state whose next word is w. -/
def Completes (s : State) (w : Word) : Prop := ∃ t, step s = .next t ∧ t.status = .running ∧ nextWord s = w

theorem completes {s : State} {w : Word}
    (h : isNext (step s) = true ∧ (nextOf (step s)).status = .running ∧ nextWord s = w) : Completes s w :=
  ⟨_, stepsTo h.1, h.2⟩

theorem witness_RedrawExactlyForClearAndDraw : Completes (placed 0x00E0) 0x00E0 ∧ Completes (placed 0xDFFF) 0xDFFF ∧
    Completes (placed 0x00E1) 0x00E1 :=
  ⟨completes (by decide +kernel), completes (by decide +kernel), completes (by decide +kernel)⟩
/-- Also for NoStepWritesRamTimersKeysOrParameters and OnlyCallAndReturnTouchStack: neither CLS nor DRW, CALL nor RET. -/
theorem witness_OnlyClearAndDrawChangeDisplay : Completes (placed 0xF155) 0xF155 ∧ (0xF155 : Word) ≠ 0x00E0 ∧
    (0xF155 : Word).toNat / 4096 ≠ 13 ∧ (0xF155 : Word).toNat / 4096 ≠ 2 ∧ (0xF155 : Word) ≠ 0x00EE :=
  ⟨completes (by decide +kernel), by decide +kernel⟩
/-- Both alternatives of OnlyLoadIndexChangesIndex. -/
theorem witness_OnlyLoadIndexChangesIndex : Completes (placed 0xAFFF) 0xAFFF ∧ (0xAFFF : Word).toNat / 4096 = 10 ∧
    Completes (placed 0xF11E) 0xF11E :=
  ⟨completes (by decide +kernel), by decide +kernel, completes (by decide +kernel)⟩
/-- A word for each clause of ProgramCounterAfterStep: 1, 2, 00EE, 3, 4, 5, 9 and the rest. -/
theorem witness_ProgramCounterAfterStep_jumps :
    Completes (placed 0x1FFF) 0x1FFF ∧ Completes (placed 0x2FFF (stacked 15)) 0x2FFF ∧
    Completes (placed 0x00EE (stacked 16)) 0x00EE :=
  ⟨completes (by decide +kernel), completes (by decide +kernel), completes (by decide +kernel)⟩
theorem witness_ProgramCounterAfterStep_skips :
    Completes (placed 0x3F00) 0x3F00 ∧ Completes (placed 0x4F01) 0x4F01 ∧ Completes (placed 0x5EF0) 0x5EF0 ∧
    Completes (placed 0x9EF0 (regs [(0xE, 1)])) 0x9EF0 :=
  ⟨completes (by decide +kernel), completes (by decide +kernel), completes (by decide +kernel), completes (by decide +kernel)⟩
theorem witness_ProgramCounterAfterStep_rest :
    Completes (placed 0xB300) 0xB300 ∧ (0xB300 : Word) ≠ 0x00EE ∧ (0xB300 : Word).toNat / 4096 ∉ [1, 2, 3, 4, 5, 9] ∧
    Completes (placed 0x00E0) 0x00E0 ∧ (0x00E0 : Word) ≠ 0x00EE ∧ (0x00E0 : Word).toNat / 4096 ∉ [1, 2, 3, 4, 5, 9] :=
  ⟨completes (by decide +kernel), by decide +kernel, by decide +kernel, completes (by decide +kernel), by decide +kernel⟩
/-- A word for each clause of RegistersWrittenByStep. -/
theorem witness_RegistersWrittenByStep :
    Completes (placed 0x6FFF) 0x6FFF ∧ Completes (placed 0x8EF3) 0x8EF3 ∧ Completes (placed 0x8FF5) 0x8FF5 ∧
    Completes (placed 0xD001 (idx 0xFFF)) 0xD001 ∧ Completes (placed 0x8EF6) 0x8EF6 ∧ Completes (placed 0xF165) 0xF165 :=
  ⟨completes (by decide +kernel), completes (by decide +kernel), completes (by decide +kernel),
    completes (by decide +kernel), completes (by decide +kernel), completes (by decide +kernel)⟩

/-- A state at the edges of the invariant: `pc` and I at their bounds, sixteen slots taken, one byte of RAM listed. -/
def edge : State := at_ 0x1002 (idx 0xFFF (stacked 16 (bytes 0xFFF [1])))
theorem witness_StepKeepsInvariant : edge.Inv ∧ isNext (step edge) = true :=
  ⟨⟨by decide +kernel, by decide +kernel, by decide +kernel, by decide +kernel, by decide +kernel, by decide +kernel,
    by decide +kernel⟩,
   by decide +kernel⟩
theorem witness_DriverKeepsInvariant : edge.Inv ∧ drive (.loadRom [1]) edge = .next (copyRom [1] edge, .romOk) :=
  ⟨witness_StepKeepsInvariant.1, rfl⟩
/-- A state reached by every kind of driver operation. -/
def sessionOps : List DriverOp :=
  [.loadRom [0x60, 0x01], .setKey 15 true, .step, .tickTimers, .getPixel 63 31, .readState]
theorem witness_DriverInputsDoNotReachTheProgram : session sessionOps base = .next (nextOf (session sessionOps base)) :=
  eq_next (by decide +kernel)
theorem witness_ReachableStatesStayInBounds : Reachable (nextOf (session sessionOps base)) :=
  ⟨_, _, witness_DriverInputsDoNotReachTheProgram⟩

/-- Both flag orders and both cases of x, for AddWithCarry, SubtractWithNoBorrowFlag and ResultAndFlagWrittenInOrder. -/
theorem witness_flagOrder : base.params.flagOrder = .flagThenResult ∧ baseRF.params.flagOrder = .resultThenFlag ∧
    (0xE : Nibble) ≠ 0xF := by decide

theorem witness_CallPushesThenJumps : (stacked 15).sp.val < 16 ∧ base.sp.val < 16 := by decide +kernel
theorem witness_ReturnRestoresProgramCounter : 0 < (stacked 1).sp.val ∧ 0 < (stacked 16).sp.val := by decide +kernel
theorem witness_StackFaultsHaltUnchanged : (stacked 16).sp.val = 16 ∧
    (0x2FFF : Word).toNat = 0x2000 + (0xFFF : Addr).toNat ∧ base.sp.val = 0 := by decide +kernel

/-- L1-8: CALL 0x300 at 0x200 with the last slot free, then RET at 0x300. -/
def callState : State := placed 0x2300 (bytes 0x300 [0x00, 0xEE] (stacked 15))
theorem witness_CallThenReturnComesBack_call : callState.status = .running ∧ callState.pc.toNat + 1 < 4096 ∧
    callState.sp.val < 16 ∧ decode (nextWord callState) = some (.call 0x300) ∧
    step callState = .next (nextOf (step callState)) :=
  have h : callState.status = .running ∧ callState.pc.toNat + 1 < 4096 ∧ callState.sp.val < 16 ∧
      decode (nextWord callState) = some (.call 0x300) ∧ isNext (step callState) = true := by decide +kernel
  ⟨h.1, h.2.1, h.2.2.1, h.2.2.2.1, eq_next h.2.2.2.2⟩
theorem witness_CallThenReturnComesBack_ret :
    KeepsStack (nextOf (step callState)) (nextOf (step callState)) ∧ (nextOf (step callState)).status = .running ∧
    (nextOf (step callState)).pc.toNat + 1 < 4096 ∧ decode (nextWord (nextOf (step callState))) = some .ret ∧
    step (nextOf (step callState)) = .next (nextOf (step (nextOf (step callState)))) :=
  ⟨⟨rfl, rfl⟩, by decide +kernel, by decide +kernel, by decide +kernel, eq_next (by decide +kernel)⟩

/-- Both cases of DrawIsXorWithCollision: no rows anywhere, and rows up to the last byte of RAM. -/
theorem witness_DrawIsXorWithCollision :
    ((0 : Nibble).toNat = 0 ∨ (idx 0xFFFF).i.toNat + (0 : Nibble).toNat - 1 < 4096) ∧
    ((0xF : Nibble).toNat = 0 ∨ (idx 0xFF1).i.toNat + (0xF : Nibble).toNat - 1 < 4096) := by decide +kernel
theorem witness_DrawOutsideRamHalts : 0 < (1 : Nibble).toNat ∧ 4096 ≤ (idx 0x1000).i.toNat + (1 : Nibble).toNat - 1 ∧
    (0xDFF1 : Word).toNat = 0xD000 + (0xF : Nibble).toNat * 256 + (0xF : Nibble).toNat * 16 + (1 : Nibble).toNat ∧
    4096 ≤ (idx 0xFF2).i.toNat + (0xF : Nibble).toNat - 1 := by decide +kernel
/-- L1-6's state, and its two draws. -/
def drawState : State := idx 0x300 (bytes 0x300 [0xF0])
/-- After the first draw. -/
def drawnOnce : State := nextOf (exec (.drw 0 1 1) drawState)
theorem witness_DrawTwiceRestoresDisplay : (0 : Nibble) ≠ 0xF ∧ (1 : Nibble) ≠ 0xF ∧
    ((1 : Nibble).toNat = 0 ∨ drawState.i.toNat + (1 : Nibble).toNat - 1 < 4096) ∧
    exec (.drw 0 1 1) drawState = .next drawnOnce ∧
    exec (.drw 0 1 1) drawnOnce = .next (nextOf (exec (.drw 0 1 1) drawnOnce)) ∧
    (nextOf (exec (.drw 0 1 1) drawnOnce)).readV 0xF = 1 :=
  ⟨by decide, by decide, by decide +kernel, eq_next (by decide +kernel), eq_next (by decide +kernel), by decide +kernel⟩
/-- The state that refutes R111's inference (log entry 15): every covered pixel was 1 before the first draw. -/
def litState : State := { drawState with disp := Vector.replicate 32 (BitVec.allOnes 64) }
theorem witness_SecondDraw : (0 : Nibble) ≠ 0xF ∧ (1 : Nibble) ≠ 0xF ∧
    ((1 : Nibble).toNat = 0 ∨ litState.i.toNat + (1 : Nibble).toNat - 1 < 4096) ∧ isNext (exec (.drw 0 1 1) litState) = true ∧
    isNext (exec (.drw 0 1 1) (nextOf (exec (.drw 0 1 1) litState))) = true ∧
    (litState.readV 0).toNat % 64 + 0 < 64 ∧ (litState.readV 1).toNat % 32 + 0 < 32 ∧
    (litState.readByte (litState.i.toNat + 0)).getLsbD (7 - 0) = true := by decide +kernel
theorem witness_WritePixelXorsOnePixel : 0 < 64 ∧ 63 < 64 ∧ 0 < 32 ∧ 31 < 32 := by decide

/-- Also for UnimplementedIndexInstructionsHaveNoEffect. -/
theorem witness_UnimplementedInstructionsHaveNoEffect : base.params.unimplPolicy ≠ .fault ∧
    Instr.ldSTVx 0xF ∈ [Instr.shr 0xF 0xF, .ldSTVx 0xF] ∧ Instr.ldVxMem 0xF ∈ [Instr.addIVx 0xF, .ldVxMem 0xF] := by decide
theorem witness_SysHasNoEffectAndFaultPolicyHalts : base.params.unimplPolicy = .nop ∧
    baseFault.params.unimplPolicy = .fault ∧ (Instr.sys 0xFFF).row ∈ unimplementedRows ∧
    (Instr.ldVxMem 0xF).row ∈ unimplementedRows := by decide

/-- Two memories in the canonical form that list different numbers of writes but are the same data. -/
theorem witness_EqualReadsMeanEqualMemories :
    Memory.wf fontData (Memory.writeBytes fontData [] 0x300 [1, 2]) ∧
    Memory.wf fontData (Memory.writeBytes fontData (Memory.writeBytes fontData [] 0x301 [2, 0]) 0x300 [1]) ∧
    Memory.writeBytes fontData [] 0x300 [1, 2] =
      Memory.writeBytes fontData (Memory.writeBytes fontData [] 0x301 [2, 0]) 0x300 [1] := by
  decide +kernel
/-- The three clauses of LoadRomIsAllOrNothing, at the limit and one byte past it. -/
theorem witness_LoadRomIsAllOrNothing : (nextOf (step (placed 0x00E0))).stepped = true ∧ base.stepped = false ∧
    3584 < (List.replicate 3585 (0 : Byte)).length ∧ (List.replicate 3584 (0 : Byte)).length ≤ 3584 ∧ Memory.wf base.params.fontData base.mem :=
  ⟨by decide +kernel, rfl, by rw [List.length_replicate]; omega, by rw [List.length_replicate], Memory.nil_wf⟩
/-- Running, for TickDecrementsTimersToZero and SetKeySetsOneKey; the last key and the first index past it. -/
theorem witness_SetKeySetsOneKey : base.status = .running ∧ 15 < 16 ∧ 16 ≤ 16 := by decide
theorem witness_DriverReadsChangeNothing : 63 < 64 ∧ 31 < 32 ∧ (64 ≤ 64 ∨ 32 ≤ 0) ∧ (64 ≤ 0 ∨ 32 ≤ 32) := by decide
theorem witness_BootRunsTheFirstRomWord : (List.replicate 3582 (0 : Byte)).length ≤ 3582 ∧
    decode ((0x12 : Byte) ++ (0x34 : Byte)) = some (.jp 0x234) := 
  ⟨by rw [List.length_replicate], by decide +kernel⟩
/-- `pc` inside RAM (the last word) and past it. -/
theorem witness_PlacedWordIsTheNextToRun : Memory.wf base.params.fontData base.mem ∧ decodeTableWord 16 0xD123 = some (.drw 1 2 3) ∧
    (at_ 0xFFE).pc.toNat + 1 < 4096 ∧ ¬ (at_ 0xFFF).pc.toNat + 1 < 4096 :=
  ⟨Memory.nil_wf, by decide +kernel, by decide +kernel, by decide +kernel⟩

end Sys2Proof.Tests
end

/-! SUPPORT. What a word says about the instruction it decodes to, and the other way round (30_encoding.md R62 to R68). -/

namespace Sys2Proof

/-! ### From the instruction to its word -/

section Encode

variable {op : Word} {i : Instr} {p : Nibble}

theorem wordPNNN_of_fieldP (hp : fieldP op = p) : wordPNNN p (fieldNNN op) = op := hp ▸ wordPNNN_fields op

theorem wordPXKK_of_fieldP (hp : fieldP op = p) : wordPXKK p (fieldX op) (fieldKK op) = op := hp ▸ wordPXKK_fields op

theorem wordPXKK_of_fieldKK {kk : Byte} (hp : fieldP op = p) (hkk : fieldKK op = kk) :
    wordPXKK p (fieldX op) kk = op := hkk ▸ wordPXKK_of_fieldP hp

theorem wordPXYN_of_fieldP (hp : fieldP op = p) : wordPXYN p (fieldX op) (fieldY op) (fieldN op) = op :=
  hp ▸ wordPXYN_fields op

theorem wordPXYN_of_fieldN {n : Nibble} (hp : fieldP op = p) (hn : fieldN op = n) :
    wordPXYN p (fieldX op) (fieldY op) n = op := hn ▸ wordPXYN_of_fieldP hp

theorem encode_of_decodeFamily0 (hp : fieldP op = 0x0#4) (h : decodeFamily0 op = some i) : encode i = op := by
  unfold decodeFamily0 at h
  split at h
  · next hop => cases h; exact hop.symm
  · split at h
    · next hop => cases h; exact hop.symm
    · cases h; exact wordPNNN_of_fieldP hp

theorem encode_of_decodeFamily8 (hp : fieldP op = 0x8#4) (h : decodeFamily8 op = some i) : encode i = op := by
  unfold decodeFamily8 at h
  split at h <;> cases h <;> exact wordPXYN_of_fieldN hp ‹_›

theorem encode_of_decodeFamilyE (hp : fieldP op = 0xE#4) (h : decodeFamilyE op = some i) : encode i = op := by
  unfold decodeFamilyE at h
  split at h <;> cases h <;> exact wordPXKK_of_fieldKK hp ‹_›

theorem encode_of_decodeFamilyF (hp : fieldP op = 0xF#4) (h : decodeFamilyF op = some i) : encode i = op := by
  unfold decodeFamilyF at h
  split at h <;> cases h <;> exact wordPXKK_of_fieldKK hp ‹_›

/-- The nibble the first fifteen families leave is 0xF. -/
theorem eq_0xF_of_ne {p : Nibble} : p ≠ 0x0#4 → p ≠ 0x1#4 → p ≠ 0x2#4 → p ≠ 0x3#4 → p ≠ 0x4#4 → p ≠ 0x5#4 →
    p ≠ 0x6#4 → p ≠ 0x7#4 → p ≠ 0x8#4 → p ≠ 0x9#4 → p ≠ 0xA#4 → p ≠ 0xB#4 → p ≠ 0xC#4 → p ≠ 0xD#4 → p ≠ 0xE#4 →
    p = 0xF#4 := by bv_omega

/-- A decoded word is the word of the instruction it decodes to. -/
theorem encode_of_decode (h : decode op = some i) : encode i = op := by
  unfold decode at h
  split at h
  · next hp => exact encode_of_decodeFamily0 hp h
  · next hp => cases h; exact wordPNNN_of_fieldP hp
  · next hp => cases h; exact wordPNNN_of_fieldP hp
  · next hp => cases h; exact wordPXKK_of_fieldP hp
  · next hp => cases h; exact wordPXKK_of_fieldP hp
  · next hp =>
    split at h
    · next hn => cases h; exact wordPXYN_of_fieldN hp hn
    · exact nomatch h
  · next hp => cases h; exact wordPXKK_of_fieldP hp
  · next hp => cases h; exact wordPXKK_of_fieldP hp
  · next hp => exact encode_of_decodeFamily8 hp h
  · next hp =>
    split at h
    · next hn => cases h; exact wordPXYN_of_fieldN hp hn
    · exact nomatch h
  · next hp => cases h; exact wordPNNN_of_fieldP hp
  · next hp => cases h; exact wordPNNN_of_fieldP hp
  · next hp => cases h; exact wordPXKK_of_fieldP hp
  · next hp => cases h; exact wordPXYN_of_fieldP hp
  · next hp => exact encode_of_decodeFamilyE hp h
  · exact encode_of_decodeFamilyF (by apply eq_0xF_of_ne <;> assumption) h

end Encode

/-! ### The selectors of an encoder's word, as numbers -/

section Selectors

variable (p x y n : Nibble) (kk : Byte) (nnn : Addr)

@[simp] theorem toNat_wordPNNN_div : (wordPNNN p nnn).toNat / 4096 = p.toNat := by
  rw [← toNat_fieldP, fieldP_wordPNNN]

@[simp] theorem toNat_wordPNNN_mod : (wordPNNN p nnn).toNat % 4096 = nnn.toNat := by
  rw [← toNat_fieldNNN, fieldNNN_wordPNNN]

@[simp] theorem toNat_wordPXKK_div : (wordPXKK p x kk).toNat / 4096 = p.toNat := by
  rw [← toNat_fieldP, fieldP_wordPXKK]

@[simp] theorem toNat_wordPXYN_div : (wordPXYN p x y n).toNat / 4096 = p.toNat := by
  rw [← toNat_fieldP, fieldP_wordPXYN]

@[simp] theorem toNat_wordPXYN_mod : (wordPXYN p x y n).toNat % 16 = n.toNat := by
  rw [← toNat_fieldN, fieldN_wordPXYN]

end Selectors

/-! ### From the family of a word to its instruction -/

section Families

variable {op : Word} {i : Instr}

theorem fieldP_of_div {k : Nat} (h : op.toNat / 4096 = k) : fieldP op = BitVec.ofNat 4 k := by
  rw [← h, ← toNat_fieldP, BitVec.ofNat_toNat, BitVec.setWidth_eq]

theorem eq_ret_of_decode (hd : decode op = some i) (hop : op = 0x00EE) : i = .ret := by
  subst hop
  exact (Option.some.inj hd).symm

theorem eq_jp_of_decode (hd : decode op = some i) (h : op.toNat / 4096 = 1) : i = .jp (fieldNNN op) := by
  unfold decode at hd
  rw [fieldP_of_div h] at hd
  exact (Option.some.inj hd).symm

theorem eq_call_of_decode (hd : decode op = some i) (h : op.toNat / 4096 = 2) : i = .call (fieldNNN op) := by
  unfold decode at hd
  rw [fieldP_of_div h] at hd
  exact (Option.some.inj hd).symm

theorem eq_seImm_of_decode (hd : decode op = some i) (h : op.toNat / 4096 = 3) :
    i = .seImm (fieldX op) (fieldKK op) := by
  unfold decode at hd
  rw [fieldP_of_div h] at hd
  exact (Option.some.inj hd).symm

theorem eq_sneImm_of_decode (hd : decode op = some i) (h : op.toNat / 4096 = 4) :
    i = .sneImm (fieldX op) (fieldKK op) := by
  unfold decode at hd
  rw [fieldP_of_div h] at hd
  exact (Option.some.inj hd).symm

theorem eq_seReg_of_decode (hd : decode op = some i) (h : op.toNat / 4096 = 5) :
    i = .seReg (fieldX op) (fieldY op) := by
  unfold decode at hd
  rw [fieldP_of_div h] at hd
  exact (Option.some.inj (Option.ite_none_right_eq_some.mp hd).2).symm

theorem eq_sneReg_of_decode (hd : decode op = some i) (h : op.toNat / 4096 = 9) :
    i = .sneReg (fieldX op) (fieldY op) := by
  unfold decode at hd
  rw [fieldP_of_div h] at hd
  exact (Option.some.inj (Option.ite_none_right_eq_some.mp hd).2).symm

end Families

end Sys2Proof

/-! SUPPORT. What a completed execute leaves in `pc`, I, the call stack and the general registers, as functions of the
instruction, and that every execute completes with these or takes a fault (10_state.md R21 to R27). -/

namespace Sys2Proof.Machine

/-- `pc` after the instruction, from the state fetch left (R24; 41_control_flow.md R85 to R91). -/
def nextPc (i : Instr) (s : State) : Word :=
  match i with
  | .jp nnn => zext16 nnn
  | .call nnn => zext16 nnn
  | .ret => s.stack[s.sp.val - 1]'(by have := s.sp.isLt; omega)
  | .seImm x kk => if s.readV x == kk then s.pc + 2 else s.pc
  | .sneImm x kk => if s.readV x != kk then s.pc + 2 else s.pc
  | .seReg x y => if s.readV x == s.readV y then s.pc + 2 else s.pc
  | .sneReg x y => if s.readV x != s.readV y then s.pc + 2 else s.pc
  | _ => s.pc

/-- I after the instruction (R26). -/
def nextIndex (i : Instr) (s : State) : Word :=
  match i with
  | .ldI nnn => zext16 nnn
  | _ => s.i

/-- The stack slots after the instruction (R27). -/
def nextStack (i : Instr) (s : State) : Vector Word 16 :=
  match i with
  | .call _ => s.stack.setIfInBounds s.sp.val s.pc
  | _ => s.stack

/-- SP after the instruction (R27). -/
def nextSp (i : Instr) (s : State) : Nat :=
  match i with
  | .call _ => s.sp.val + 1
  | .ret => s.sp.val - 1
  | _ => s.sp.val

/-- The general registers the instruction may write (R21, R22). -/
def writtenRegs : Instr → List Nibble
  | .ldImm x _ => [x]
  | .addImm x _ => [x]
  | .ldReg x _ => [x]
  | .orReg x _ => [x]
  | .andReg x _ => [x]
  | .xorReg x _ => [x]
  | .addReg x _ => [x, vf]
  | .subReg x _ => [x, vf]
  | .drw _ _ _ => [vf]
  | _ => []

/-- The instruction has completed, from `s` to `t`. -/
structure ExecCompletes (i : Instr) (s t : State) : Prop where
  status : t.status = s.status
  pc     : t.pc = nextPc i s
  index  : t.i = nextIndex i s
  sp     : t.sp.val = nextSp i s
  stack  : t.stack = nextStack i s
  regs   : KeepsRegsExcept (writtenRegs i) s t

section Completion

variable {i : Instr} {s t u : State}

theorem ExecCompletes.of_complete {r : Bool} (h : complete r u = .next t) (hu : ExecCompletes i s u) :
    ExecCompletes i s t := by
  rw [complete_eq_next.mp h]
  exact ⟨hu.status, hu.pc, hu.index, hu.sp, hu.stack, hu.regs⟩

theorem ExecCompletes.of_skipIf {c : Bool} (h : skipIf c s = .next t)
    (hu : ExecCompletes i s { s with pc := if c then s.pc + 2 else s.pc }) : ExecCompletes i s t := by
  rw [skipIf_eq_next.mp h]
  exact ⟨hu.status, hu.pc, hu.index, hu.sp, hu.stack, hu.regs⟩

/-- An instruction of the seventeen halts or changes nothing. -/
theorem halts_or_completes_of_unimplemented {op : Word} (h : unimplemented op s = .next t)
    (hs : ExecCompletes i s s) : (∃ f, t = raiseFault f s) ∨ ExecCompletes i s t := by
  rcases unimplemented_eq_next.mp h with ⟨-, rfl⟩ | ⟨-, rfl⟩
  · exact .inr ⟨hs.status, hs.pc, hs.index, hs.sp, hs.stack, hs.regs⟩
  · exact .inl ⟨_, rfl⟩

theorem keepsRegsExcept_refl (ks : List Nibble) : KeepsRegsExcept ks s s := fun _ _ => rfl

theorem keepsRegsExcept_writeV (x : Nibble) (b : Byte) : KeepsRegsExcept [x] s (s.writeV x b) := fun k hk =>
  readV_writeV_other s x k b (List.ne_of_not_mem_cons hk)

theorem keepsRegsExcept_writeResultAndFlag (x : Nibble) (res f : Byte) :
    KeepsRegsExcept [x, vf] s (s.writeResultAndFlag x res f) := by
  intro k hk
  obtain ⟨hx, hf⟩ : k ≠ x ∧ k ≠ vf := by simpa using hk
  simp [writeResultAndFlag_readV, hx, hf]

theorem ExecCompletes.ret {w : Word} (h : s.pop = some (w, u)) :
    ExecCompletes .ret s { u with pc := w, redraw := some false } := by
  obtain ⟨_, rfl, rfl⟩ := pop_eq_some h
  exact ⟨rfl, rfl, rfl, rfl, rfl, keepsRegsExcept_refl _⟩

theorem set_eq_setIfInBounds {v : Vector Word 16} {k : Nat} (hk : k < 16) (w : Word) :
    v.set k w hk = v.setIfInBounds k w := by
  ext1 j hj
  rw [Vector.getElem_set, Vector.getElem_setIfInBounds]

theorem ExecCompletes.call {nnn : Addr} (h : s.push s.pc = some u) :
    ExecCompletes (.call nnn) s { u with pc := zext16 nnn, redraw := some false } := by
  obtain ⟨hlt, rfl⟩ := push_eq_some h
  exact ⟨rfl, rfl, rfl, rfl, set_eq_setIfInBounds hlt _, keepsRegsExcept_refl _⟩

/-- Everything execute can do to status, `pc`, I, the call stack and the registers. -/
theorem exec_halts_or_completes (h : exec i s = .next t) :
    (∃ f, t = raiseFault f s) ∨ ExecCompletes i s t := by
  cases i with
  | ret =>
    rcases execRet_eq_next.mp h with ⟨w, u, hp, rfl⟩ | ⟨-, rfl⟩
    · exact .inr (.ret hp)
    · exact .inl ⟨_, rfl⟩
  | call nnn =>
    rcases execCall_eq_next.mp h with ⟨u, hp, rfl⟩ | ⟨-, rfl⟩
    · exact .inr (.call hp)
    · exact .inl ⟨_, rfl⟩
  | drw x y n =>
    rcases execDrw_eq_next.mp h with ⟨-, rfl⟩ | ⟨-, rfl⟩
    · exact .inl ⟨_, rfl⟩
    · exact .inr ⟨rfl, rfl, rfl, rfl, rfl, keepsRegsExcept_writeV vf _⟩
  | cls => exact .inr (.of_complete h ⟨rfl, rfl, rfl, rfl, rfl, keepsRegsExcept_refl _⟩)
  | jp nnn => exact .inr (.of_complete h ⟨rfl, rfl, rfl, rfl, rfl, keepsRegsExcept_refl _⟩)
  | ldI nnn => exact .inr (.of_complete h ⟨rfl, rfl, rfl, rfl, rfl, keepsRegsExcept_refl _⟩)
  | seImm x kk => exact .inr (.of_skipIf h ⟨rfl, rfl, rfl, rfl, rfl, keepsRegsExcept_refl _⟩)
  | sneImm x kk => exact .inr (.of_skipIf h ⟨rfl, rfl, rfl, rfl, rfl, keepsRegsExcept_refl _⟩)
  | seReg x y => exact .inr (.of_skipIf h ⟨rfl, rfl, rfl, rfl, rfl, keepsRegsExcept_refl _⟩)
  | sneReg x y => exact .inr (.of_skipIf h ⟨rfl, rfl, rfl, rfl, rfl, keepsRegsExcept_refl _⟩)
  | ldImm x kk => exact .inr (.of_complete h ⟨rfl, rfl, rfl, rfl, rfl, keepsRegsExcept_writeV x _⟩)
  | addImm x kk => exact .inr (.of_complete h ⟨rfl, rfl, rfl, rfl, rfl, keepsRegsExcept_writeV x _⟩)
  | ldReg x y => exact .inr (.of_complete h ⟨rfl, rfl, rfl, rfl, rfl, keepsRegsExcept_writeV x _⟩)
  | orReg x y => exact .inr (.of_complete h ⟨rfl, rfl, rfl, rfl, rfl, keepsRegsExcept_writeV x _⟩)
  | andReg x y => exact .inr (.of_complete h ⟨rfl, rfl, rfl, rfl, rfl, keepsRegsExcept_writeV x _⟩)
  | xorReg x y => exact .inr (.of_complete h ⟨rfl, rfl, rfl, rfl, rfl, keepsRegsExcept_writeV x _⟩)
  | addReg x y =>
    exact .inr (.of_complete h ⟨by simp, by simp [nextPc], by simp [nextIndex], by simp [nextSp], by simp [nextStack],
      keepsRegsExcept_writeResultAndFlag x _ _⟩)
  | subReg x y =>
    exact .inr (.of_complete h ⟨by simp, by simp [nextPc], by simp [nextIndex], by simp [nextSp], by simp [nextStack],
      keepsRegsExcept_writeResultAndFlag x _ _⟩)
  | _ => exact halts_or_completes_of_unimplemented h ⟨rfl, rfl, rfl, rfl, rfl, keepsRegsExcept_refl _⟩

end Completion

/-! ### One step -/

section Step

variable {s t : State}

/-- Everything a step can do: a fault taken where fetch or the decoder failed or on the state fetch left, or the decoded
instruction completed. -/
theorem step_halts_or_completes (h : step s = .next t) :
    (∃ f u, t = raiseFault f u ∧ (u = beginStep s ∧ 4096 ≤ s.pc.toNat + 1 ∨ u = afterFetch s ∧ s.pc.toNat + 1 < 4096)) ∨
    (s.pc.toNat + 1 < 4096 ∧ ∃ i, decode (nextWord s) = some i ∧ KeepsUnwritten (afterFetch s) t ∧
      ExecCompletes i (afterFetch s) t) := by
  rcases (step_cases h).2 with ⟨hb, rfl⟩ | ⟨hb, -, rfl⟩ | ⟨hb, i, hd, he⟩
  · exact .inl ⟨_, _, rfl, .inl ⟨rfl, hb⟩⟩
  · exact .inl ⟨_, _, rfl, .inr ⟨rfl, hb⟩⟩
  · rcases exec_halts_or_completes he with ⟨f, rfl⟩ | hc
    · exact .inl ⟨f, _, rfl, .inr ⟨rfl, hb⟩⟩
    · exact .inr ⟨hb, i, hd, exec_keeps i he, hc⟩

/-- A step that leaves the session running has completed the instruction it decoded. -/
theorem step_completes_of_running (h : step s = .next t) (hr : t.status = .running) :
    ∃ i, decode (nextWord s) = some i ∧ ExecCompletes i (afterFetch s) t := by
  rcases step_halts_or_completes h with ⟨f, u, rfl, -⟩ | ⟨-, i, hd, -, hc⟩
  · exact nomatch hr
  · exact ⟨i, hd, hc⟩

/-- A step that faults keeps I, the call stack and the registers (60_exceptions.md R135). -/
theorem step_keeps_or_completes (h : step s = .next t) :
    (t.i = s.i ∧ KeepsStack s t ∧ KeepsRegsExcept [] s t) ∨
    ∃ i, decode (nextWord s) = some i ∧ ExecCompletes i (afterFetch s) t := by
  rcases step_halts_or_completes h with ⟨f, u, rfl, ⟨rfl, -⟩ | ⟨rfl, -⟩⟩ | ⟨-, i, hd, -, hc⟩
  · exact .inl ⟨rfl, ⟨rfl, rfl⟩, fun _ _ => rfl⟩
  · exact .inl ⟨rfl, ⟨rfl, rfl⟩, fun _ _ => rfl⟩
  · exact .inr ⟨i, hd, hc⟩

end Step

end Sys2Proof.Machine

/-! The invariant of Safety.lean, kept by every step and every driver operation, and so met by every reachable state. -/

namespace Sys2Proof.Machine

section Bounds

variable {i : Instr} {s : State}

theorem toNat_zext16_le (nnn : Addr) : (zext16 nnn).toNat ≤ 0xFFF := by
  rw [toNat_zext16]; omega

theorem toNat_add_two_le {pc : Word} (h : pc.toNat + 1 < 4096) : (pc + 2).toNat ≤ 0x1000 := by
  bv_omega

/-- A taken skip leaves `pc` at most 2 past where fetch left it (10_state.md R25). -/
theorem toNat_skip_le (c : Bool) {pc : Word} (h : pc.toNat ≤ 0x1000) :
    (if c then pc + 2 else pc).toNat ≤ 0x1002 := by
  cases c
  · simp only [Bool.false_eq_true, if_false]; omega
  · simp only [if_true]; bv_omega

theorem nextPc_le (hpc : s.pc.toNat ≤ 0x1000) (hslots : ∀ j : Fin 16, s.stack[j].toNat ≤ 0x1000) :
    (nextPc i s).toNat ≤ 0x1002 := by
  cases i with
  | jp nnn => exact (toNat_zext16_le nnn).trans (by decide)
  | call nnn => exact (toNat_zext16_le nnn).trans (by decide)
  | ret => exact (hslots ⟨s.sp.val - 1, by omega⟩).trans (by decide)
  | seImm x kk => exact toNat_skip_le _ hpc
  | sneImm x kk => exact toNat_skip_le _ hpc
  | seReg x y => exact toNat_skip_le _ hpc
  | sneReg x y => exact toNat_skip_le _ hpc
  | _ => exact hpc.trans (by decide)

theorem nextIndex_le (hi : s.i.toNat ≤ 0xFFF) : (nextIndex i s).toNat ≤ 0xFFF := by
  cases i with
  | ldI nnn => exact toNat_zext16_le nnn
  | _ => exact hi

theorem nextStack_le (hpc : s.pc.toNat ≤ 0x1000) (hslots : ∀ j : Fin 16, s.stack[j].toNat ≤ 0x1000) (j : Fin 16) :
    (nextStack i s)[j].toNat ≤ 0x1000 := by
  cases i with
  | call nnn =>
    simp only [nextStack, Fin.getElem_fin, Vector.getElem_setIfInBounds]
    split
    · exact hpc
    · exact hslots j
  | _ => exact hslots j

end Bounds

section Invariant

variable {s t : State}

/-- The invariant speaks of RAM, the parameters, the timers, `pc`, I and the stack slots alone. -/
theorem State.Inv.of_keeps (h : s.Inv) (hmem : t.mem = s.mem) (hparams : t.params = s.params) (hdt : t.dt = s.dt)
    (hst : t.st = s.st) (hpc : t.pc.toNat ≤ 0x1002) (hi : t.i.toNat ≤ 0xFFF)
    (hslots : ∀ j : Fin 16, t.stack[j].toNat ≤ 0x1000) : t.Inv where
  memWf := by rw [hmem, hparams]; exact h.memWf
  font a ha := by rw [readByte_congr hmem hparams, hparams]; exact h.font a ha
  pcBound := hpc
  iBound := hi
  slots := hslots
  dtZero := hdt.trans h.dtZero
  stZero := hst.trans h.stZero

theorem construct_inv (p : Params) : (State.construct p).Inv where
  memWf := Memory.nil_wf
  font _ _ := rfl
  pcBound := (by decide : (BitVec.ofNat 16 programStart).toNat ≤ 0x1002)
  iBound := Nat.zero_le _
  slots j := by simp [State.construct]
  dtZero := rfl
  stZero := rfl

theorem step_keeps_inv (hs : s.Inv) (h : step s = .next t) : t.Inv := by
  rcases step_halts_or_completes h with ⟨f, u, rfl, ⟨rfl, -⟩ | ⟨rfl, hb⟩⟩ | ⟨hb, i, -, hk, hc⟩
  · exact hs.of_keeps rfl rfl rfl rfl hs.pcBound hs.iBound hs.slots
  · exact hs.of_keeps rfl rfl rfl rfl ((toNat_add_two_le hb).trans (by decide)) hs.iBound hs.slots
  · obtain ⟨hdt, hst, hmem, -, -, hparams⟩ := hk
    have hpc : (afterFetch s).pc.toNat ≤ 0x1000 := toNat_add_two_le hb
    refine hs.of_keeps hmem hparams hdt hst ?_ ?_ fun j => ?_
    · rw [hc.pc]; exact nextPc_le hpc hs.slots
    · rw [hc.index]; exact nextIndex_le hs.iBound
    · rw [hc.stack]; exact nextStack_le hpc hs.slots j

/-- The ROM area starts above the font (20_memory.md R43, R50). -/
theorem copyRom_inv {bytes : List Byte} (hl : bytes.length ≤ romCapacity) (hs : s.Inv) : (copyRom bytes s).Inv where
  memWf := copyRom_wf s bytes hl hs.memWf
  font a ha := by
    have : ¬ (programStart ≤ a ∧ a < programStart + bytes.length) := by unfold programStart; omega
    rw [readByte_copyRom s bytes a hl hs.memWf, if_neg this]
    exact hs.font a ha
  pcBound := hs.pcBound
  iBound := hs.iBound
  slots := hs.slots
  dtZero := hs.dtZero
  stZero := hs.stZero

theorem loadRom_keeps_inv {bytes : List Byte} {r : Reply} (hs : s.Inv) (h : loadRom bytes s = .next (t, r)) : t.Inv := by
  unfold loadRom at h
  split at h
  · exact nomatch h
  · split at h
    · cases h; exact hs
    · next hl => cases h; exact copyRom_inv (Nat.le_of_not_lt hl) hs

theorem driveStep_eq_next {r : Reply} (h : driveStep s = .next (t, r)) : step s = .next t := by
  unfold driveStep at h
  split at h
  · next hs => cases h; exact hs
  · exact nomatch h
  · exact nomatch h

theorem tickTimers_keeps_inv {r : Reply} (hs : s.Inv) (h : tickTimers s = .next (t, r)) : t.Inv := by
  unfold tickTimers at h
  split at h
  · cases h
    refine hs.of_keeps rfl rfl ?_ ?_ hs.pcBound hs.iBound hs.slots
    · simp [hs.dtZero, decrementTimer]
    · simp [hs.stZero, decrementTimer]
  · exact nomatch h

theorem setKey_keeps_inv {k : Nat} {b : Bool} {r : Reply} (hs : s.Inv) (h : setKey k b s = .next (t, r)) : t.Inv := by
  unfold setKey at h
  split at h
  · split at h
    · cases h; exact hs.of_keeps rfl rfl rfl rfl hs.pcBound hs.iBound hs.slots
    · exact nomatch h
  · exact nomatch h

theorem getPixel_eq_next {x y : Nat} {r : Reply} (h : getPixel x y s = .next (t, r)) : t = s := by
  unfold getPixel at h
  split at h
  · cases h; rfl
  · exact nomatch h

theorem drive_keeps_inv {op : DriverOp} {r : Reply} (hs : s.Inv) (h : drive op s = .next (t, r)) : t.Inv := by
  cases op with
  | loadRom bytes => exact loadRom_keeps_inv hs h
  | step => exact step_keeps_inv hs (driveStep_eq_next h)
  | tickTimers => exact tickTimers_keeps_inv hs h
  | setKey k b => exact setKey_keeps_inv hs h
  | getPixel x y => exact getPixel_eq_next h ▸ hs
  | readState => cases h; exact hs

theorem session_cons_eq_next {op : DriverOp} {ops : List DriverOp} (h : session (op :: ops) s = .next t) :
    ∃ u r, drive op s = .next (u, r) ∧ session ops u = .next t := by
  unfold session at h
  split at h
  · next u r hu => exact ⟨u, r, hu, h⟩
  · exact nomatch h
  · exact nomatch h

/-- A property that every driver operation keeps, a session keeps. -/
theorem session_induction {P : State → Prop} (hP : ∀ op s t r, P s → drive op s = .next (t, r) → P t)
    {ops : List DriverOp} (hs : P s) (h : session ops s = .next t) : P t := by
  induction ops generalizing s with
  | nil => cases h; exact hs
  | cons op ops ih =>
    obtain ⟨u, r, hu, h⟩ := session_cons_eq_next h
    exact ih (hP op s u r hs hu) h

theorem reachable_inv (h : Reachable s) : s.Inv := by
  obtain ⟨p, ops, h⟩ := h
  exact session_induction (fun _ _ _ _ => drive_keeps_inv) (construct_inv p) h

end Invariant

/-- Settles O24: the three ways a step goes, with the bounds of what a completed instruction leaves. -/
theorem stepKeepsInvariant : Obligations.StepKeepsInvariant := fun _ _ => step_keeps_inv

/-- Settles O26, by the invariant along a session. -/
theorem reachableStatesStayInBounds : Obligations.ReachableStatesStayInBounds := by
  intro s h
  have hs := reachable_inv h
  exact ⟨hs.pcBound, hs.iBound, hs.slots, hs.dtZero, hs.stZero, hs.font⟩

/-- Settles O23, field by field. -/
theorem constructionMeetsInvariant : Obligations.ConstructionMeetsInvariant := fun p => ⟨construct_inv p, rfl⟩

theorem pixel_construct (p : Params) (x y : Nat) : Display.pixel (State.construct p).disp x y = false := by
  unfold Display.pixel
  split
  · simp [State.construct]
  · rfl

/-- Settles O28: each element of the constructed state, RAM above the font by `resetByte`. -/
theorem resetValues : Obligations.ResetValues := by
  refine ⟨by decide, fun k => ?_, rfl, rfl, fun j => ?_, rfl, rfl, fun x y _ _ => pixel_construct _ x y, fun k => ?_,
    rfl, rfl, fun a ha => ?_⟩
  · simp [State.readV, State.reset, State.construct]
  · simp [State.reset, State.construct]
  · simp [State.reset, State.construct]
  · exact (readByte_construct _ a).trans (resetByte_of_le _ ha)

/-! ### What a step writes, by the word fetched -/

section ByWord

variable {w : Word} {i : Instr}

/-- The registers a decoded word may write: Vx for 6xkk, 7xkk and 8xy0 to 8xy5, VF for DRW, 8xy4 and 8xy5. -/
def MayWrite (w : Word) (k : Nibble) : Prop :=
  (k = fieldX w ∧ (w.toNat / 4096 = 6 ∨ w.toNat / 4096 = 7 ∨ w.toNat / 4096 = 8 ∧ w.toNat % 16 < 6)) ∨
  (k = vf ∧ (w.toNat / 4096 = 13 ∨ w.toNat / 4096 = 8 ∧ (w.toNat % 16 = 4 ∨ w.toNat % 16 = 5)))

theorem mayWrite_of_decode {k : Nibble} (hd : decode w = some i) (hk : k ∈ writtenRegs i) : MayWrite w k := by
  obtain rfl := encode_of_decode hd
  cases i with
  | ldImm x kk => exact .inl ⟨by simpa [writtenRegs, encode] using hk, by simp [encode]⟩
  | addImm x kk => exact .inl ⟨by simpa [writtenRegs, encode] using hk, by simp [encode]⟩
  | ldReg x y => exact .inl ⟨by simpa [writtenRegs, encode] using hk, by simp [encode]⟩
  | orReg x y => exact .inl ⟨by simpa [writtenRegs, encode] using hk, by simp [encode]⟩
  | andReg x y => exact .inl ⟨by simpa [writtenRegs, encode] using hk, by simp [encode]⟩
  | xorReg x y => exact .inl ⟨by simpa [writtenRegs, encode] using hk, by simp [encode]⟩
  | addReg x y =>
    rcases List.mem_cons.mp hk with rfl | hk
    · exact .inl ⟨by simp [encode], by simp [encode]⟩
    · exact .inr ⟨List.mem_singleton.mp hk, by simp [encode]⟩
  | subReg x y =>
    rcases List.mem_cons.mp hk with rfl | hk
    · exact .inl ⟨by simp [encode], by simp [encode]⟩
    · exact .inr ⟨List.mem_singleton.mp hk, by simp [encode]⟩
  | drw x y n => exact .inr ⟨List.mem_singleton.mp hk, by simp [encode]⟩
  | _ => exact nomatch hk

theorem nextIndex_of_decode (hd : decode w = some i) (s : State) :
    nextIndex i s = s.i ∨ (w.toNat / 4096 = 10 ∧ (nextIndex i s).toNat = w.toNat % 4096) := by
  obtain rfl := encode_of_decode hd
  cases i with
  | ldI nnn => exact .inr ⟨by simp [encode], by simp [encode, nextIndex, toNat_zext16]⟩
  | _ => exact .inl rfl

/-- A word outside the control flow families leaves `pc` as fetch did. -/
theorem nextPc_of_decode (hd : decode w = some i) (hret : w ≠ 0x00EE) (hw : w.toNat / 4096 ∉ [1, 2, 3, 4, 5, 9])
    (s : State) : nextPc i s = s.pc := by
  obtain rfl := encode_of_decode hd
  cases i with
  | ret => exact absurd rfl hret
  | jp nnn => simp [encode] at hw
  | call nnn => simp [encode] at hw
  | seImm x kk => simp [encode] at hw
  | sneImm x kk => simp [encode] at hw
  | seReg x y => simp [encode] at hw
  | sneReg x y => simp [encode] at hw
  | _ => rfl

theorem ExecCompletes.keepsStack {s t : State} (hc : ExecCompletes i s t) (hd : decode w = some i)
    (hcall : w.toNat / 4096 ≠ 2) (hret : w ≠ 0x00EE) : KeepsStack s t := by
  obtain rfl := encode_of_decode hd
  cases i with
  | ret => exact absurd rfl hret
  | call nnn => simp [encode] at hcall
  | _ => exact ⟨Fin.ext hc.sp, hc.stack⟩

end ByWord

/-- A step writes no register but those its word may write. -/
theorem step_keeps_reg {s t : State} (h : step s = .next t) {k : Nibble} (hk : ¬ MayWrite (nextWord s) k) :
    t.readV k = s.readV k := by
  rcases step_keeps_or_completes h with ⟨-, -, hregs⟩ | ⟨i, hd, hc⟩
  · exact hregs k List.not_mem_nil
  · exact hc.regs k fun hmem => hk (mayWrite_of_decode hd hmem)

/-- Settles O19: a fault keeps I, and of the completed instructions LD I alone writes it. -/
theorem onlyLoadIndexChangesIndex : Obligations.OnlyLoadIndexChangesIndex := by
  rintro s t w h (rfl : w = nextWord s)
  rcases step_keeps_or_completes h with ⟨hi, -, -⟩ | ⟨i, hd, hc⟩
  · exact .inl hi
  · rw [hc.index]
    exact nextIndex_of_decode hd (afterFetch s)

/-- Settles O21: a fault keeps the stack, and of the completed instructions CALL and RET alone touch it. -/
theorem onlyCallAndReturnTouchStack : Obligations.OnlyCallAndReturnTouchStack := by
  rintro s t w h (rfl : w = nextWord s) hcall hret
  rcases step_keeps_or_completes h with ⟨-, hstack, -⟩ | ⟨i, hd, hc⟩
  · exact hstack
  · exact hc.keepsStack hd hcall hret

/-- Settles O22: each clause's family rules out what `MayWrite` allows outside its list. -/
theorem registersWrittenByStep : Obligations.RegistersWrittenByStep := by
  rintro s t w x h (rfl : w = nextWord s) hx
  obtain rfl : x = fieldX (nextWord s) := BitVec.eq_of_toNat_eq (hx.trans (toNat_fieldX _).symm)
  refine ⟨fun hw k hk => step_keeps_reg h ?_, fun hw k hk => step_keeps_reg h ?_, fun hw k hk => step_keeps_reg h ?_,
    fun hw k hk => step_keeps_reg h ?_⟩
  · rintro (⟨rfl, -⟩ | ⟨-, hf⟩)
    · simp at hk
    · omega
  · rintro (⟨rfl, -⟩ | ⟨rfl, -⟩)
    · simp at hk
    · simp [vf] at hk
  · rintro (⟨-, hf⟩ | ⟨rfl, -⟩)
    · omega
    · simp [vf] at hk
  · simp only [List.mem_cons, List.not_mem_nil, or_false, not_or] at hw
    rintro (⟨-, hf⟩ | ⟨-, hf⟩) <;> omega

/-! ### The skips, from the fetched instruction's address -/

section Skips

variable (s : State) (x y : Nibble) (kk : Byte)

theorem skip_afterFetch (c : Bool) :
    (if c then (afterFetch s).pc + 2 else (afterFetch s).pc) = if c then s.pc + 4 else s.pc + 2 := by
  have hpc : (afterFetch s).pc = s.pc + 2 := rfl
  rw [hpc, BitVec.add_assoc]
  rfl

theorem nextPc_seImm : nextPc (.seImm x kk) (afterFetch s) = if s.readV x = kk then s.pc + 4 else s.pc + 2 :=
  (skip_afterFetch s (s.readV x == kk)).trans (by simp only [beq_iff_eq])

theorem nextPc_sneImm : nextPc (.sneImm x kk) (afterFetch s) = if s.readV x = kk then s.pc + 2 else s.pc + 4 :=
  (skip_afterFetch s (s.readV x != kk)).trans (by simp only [bne_iff_ne, ite_not])

theorem nextPc_seReg :
    nextPc (.seReg x y) (afterFetch s) = if s.readV x = s.readV y then s.pc + 4 else s.pc + 2 :=
  (skip_afterFetch s (s.readV x == s.readV y)).trans (by simp only [beq_iff_eq])

theorem nextPc_sneReg :
    nextPc (.sneReg x y) (afterFetch s) = if s.readV x = s.readV y then s.pc + 2 else s.pc + 4 :=
  (skip_afterFetch s (s.readV x != s.readV y)).trans (by simp only [bne_iff_ne, ite_not])

end Skips

/-- Settles O20: the family of the word gives the instruction, and `nextPc` its `pc`. -/
theorem programCounterAfterStep : Obligations.ProgramCounterAfterStep := by
  rintro s t w x y h hr (rfl : w = nextWord s) hx hy
  obtain rfl : x = fieldX (nextWord s) := BitVec.eq_of_toNat_eq (hx.trans (toNat_fieldX _).symm)
  obtain rfl : y = fieldY (nextWord s) := BitVec.eq_of_toNat_eq (hy.trans (toNat_fieldY _).symm)
  obtain ⟨i, hd, hc⟩ := step_completes_of_running h hr
  have hpc := hc.pc
  refine ⟨?_, fun hw => ?_, fun hw => ?_, fun hw => ?_, fun hw => ?_, fun hw => ?_, fun hret hw => ?_⟩
  · rintro (hw | hw)
    · obtain rfl := eq_jp_of_decode hd hw
      rw [hpc, nextPc, toNat_zext16, toNat_fieldNNN]
    · obtain rfl := eq_call_of_decode hd hw
      rw [hpc, nextPc, toNat_zext16, toNat_fieldNNN]
  · obtain rfl := eq_ret_of_decode hd hw
    exact ⟨by omega, hpc⟩
  · obtain rfl := eq_seImm_of_decode hd hw
    simp only [hpc, nextPc_seImm, ← toNat_fieldKK, BitVec.toNat_inj]
  · obtain rfl := eq_sneImm_of_decode hd hw
    simp only [hpc, nextPc_sneImm, ← toNat_fieldKK, BitVec.toNat_inj]
  · obtain rfl := eq_seReg_of_decode hd hw
    rw [hpc, nextPc_seReg]
  · obtain rfl := eq_sneReg_of_decode hd hw
    rw [hpc, nextPc_sneReg]
  · exact hpc.trans (nextPc_of_decode hd hret hw _)

end Sys2Proof.Machine

/-! What reading RAM says about a memory in the canonical form (20_memory.md R40, R51; log entry 13); then fetch, construction,
the pixel write and the driver's operations, each by its conditions. -/

namespace Sys2Proof.Machine.Memory

variable {f : FontData} {m m' : Memory} {a k : Nat} {c : Host.Cell}

theorem wf_of_cons (h : wf f (c :: m)) : wf f m := ⟨h.1.tail, fun d hd => h.2 d (List.mem_cons_of_mem c hd)⟩

theorem lt_of_wf_cons (h : wf f (c :: m)) {d : Host.Cell} (hd : d ∈ m) : c.1 < d.1 :=
  (List.pairwise_cons.mp h.1).1 d hd

theorem read_cons_same (b : Byte) : read f ((a, b) :: m) a = b := if_pos rfl

theorem read_cons_other (b : Byte) (h : a ≠ k) : read f ((k, b) :: m) a = read f m a := if_neg h

/-- An entry is read at its address: no earlier entry of the list has the same one. -/
theorem read_of_mem (h : wf f m) (hc : c ∈ m) : read f m c.1 = c.2 := by
  induction m with
  | nil => exact absurd hc List.not_mem_nil
  | cons d m ih =>
    rcases List.mem_cons.mp hc with rfl | hc
    · exact read_cons_same c.2
    · rw [read_cons_other d.2 (Nat.ne_of_gt (lt_of_wf_cons h hc))]
      exact ih (wf_of_cons h) hc

/-- A byte that differs from construction is listed. -/
theorem mem_of_read_ne (h : read f m a ≠ resetByte f a) : (a, read f m a) ∈ m := by
  induction m with
  | nil => exact absurd rfl h
  | cons d m ih =>
    obtain ⟨k, b⟩ := d
    by_cases hak : a = k
    · subst hak
      rw [read_cons_same]
      exact List.mem_cons_self
    · rw [read_cons_other b hak] at h ⊢
      exact List.mem_cons_of_mem _ (ih h)

/-- The entries of a memory in the canonical form, by what it reads as. -/
theorem mem_iff_read (h : wf f m) : c ∈ m ↔ read f m c.1 = c.2 ∧ c.2 ≠ resetByte f c.1 := by
  constructor
  · exact fun hc => ⟨read_of_mem h hc, (h.2 c hc).2⟩
  · rintro ⟨hr, hne⟩
    have := mem_of_read_ne (hr.symm ▸ hne : read f m c.1 ≠ resetByte f c.1)
    rwa [hr] at this

/-- Lists with strictly rising addresses and the same entries are equal. -/
theorem eq_of_mem_iff (h : wf f m) (h' : wf f m') (hmem : ∀ c, c ∈ m ↔ c ∈ m') : m = m' :=
  have : Std.Antisymm fun c d : Host.Cell => c.1 < d.1 := ⟨fun _ _ hlt hgt => absurd hlt (Nat.lt_asymm hgt)⟩
  have : Std.Irrefl fun c d : Host.Cell => c.1 < d.1 := ⟨fun c => Nat.lt_irrefl c.1⟩
  h.1.eq_of_mem_iff h'.1 hmem

end Sys2Proof.Machine.Memory

namespace Sys2Proof.Machine

/-- Settles O54: what a memory reads as fixes its entries, and the canonical form their order. -/
theorem equalReadsMeanEqualMemories : Obligations.EqualReadsMeanEqualMemories := by
  intro f m m' h h' hread
  refine Memory.eq_of_mem_iff h h' fun c => ?_
  rw [Memory.mem_iff_read h, Memory.mem_iff_read h', hread c.1]

/-! ### Fetch and the step -/

section Fetch

variable {s t : State}

/-- A step that halts or completes writes what an instruction may write and, before it, the first-step mark. -/
theorem step_keepsUnwritten (h : step s = .next t) : KeepsUnwritten (beginStep s) t := by
  rcases step_halts_or_completes h with ⟨f, u, rfl, ⟨rfl, -⟩ | ⟨rfl, -⟩⟩ | ⟨-, i, -, hk, -⟩
  · exact ⟨rfl, rfl, rfl, rfl, rfl, rfl⟩
  · exact ⟨rfl, rfl, rfl, rfl, rfl, rfl⟩
  · exact hk

/-- Fetch inside RAM, from any state (40_cycle.md R75). -/
theorem fetch_of_inBounds (h : s.pc.toNat + 1 < 4096) : fetch s = .ok (s.readWord s.pc.toNat, s.advancePc) :=
  if_pos (fetchInBounds_iff.mpr h)

theorem toNat_readWord (a : Nat) : (s.readWord a).toNat = (s.readByte a).toNat * 256 + (s.readByte (a + 1)).toNat :=
  toNat_joinBytes _ _

/-- Inside RAM advancing `pc` does not wrap. -/
theorem toNat_advancePc (h : s.pc.toNat + 1 < 4096) : s.advancePc.pc.toNat = s.pc.toNat + 2 := by
  rw [advancePc_pc]; bv_omega

end Fetch

/-- Settles O18: a step keeps the fields no instruction writes. -/
theorem noStepWritesRamTimersKeysOrParameters : Obligations.NoStepWritesRamTimersKeysOrParameters := by
  intro s t h
  obtain ⟨hdt, hst, hmem, hkeys, -, hparams⟩ := step_keepsUnwritten h
  exact ⟨keepsMemory_of_mem hmem hparams, hmem, hdt, hst, hkeys, hparams⟩

/-- Settles O8, by the value of the joined bytes. -/
theorem fetchIsBigEndian : Obligations.FetchIsBigEndian := fun _ h =>
  ⟨_, _, fetch_of_inBounds h, toNat_readWord _, rfl, toNat_advancePc h⟩

/-! ### Construction -/

theorem readByte_construct_of_lt (p : Params) {a : Nat} (h : a < 80) :
    (State.construct p).readByte a = p.fontData[a] := by
  rw [readByte_construct, resetByte_of_lt p.fontData h]

theorem readByte_construct_of_le (p : Params) {a : Nat} (h : 80 ≤ a) : (State.construct p).readByte a = 0 := by
  rw [readByte_construct, resetByte_of_le p.fontData h]

/-- The font region after construction, read in order, is the parameter. -/
theorem map_readByte_construct (p : Params) :
    (List.range 80).map (State.construct p).readByte = p.fontData.toList := by
  refine List.ext_getElem (by simp) fun a _ ha => ?_
  rw [Vector.length_toList] at ha
  rw [List.getElem_map, List.getElem_range, readByte_construct_of_lt p ha, Vector.getElem_toList]

/-- Settles O29: construction reads as its parameter, and the parameter at reset is the table. -/
theorem resetFont : Obligations.ResetFont :=
  ⟨fun p => ⟨fun _ h => readByte_construct_of_lt p h, fun _ h => readByte_construct_of_le p h⟩,
    map_readByte_construct defaultParams⟩

/-! ### The display -/

/-- Settles O50, by `writePixel_spec` at the pixel and beside it. -/
theorem writePixelXorsOnePixel : Obligations.WritePixelXorsOnePixel := by
  intro d x y b hx hy
  obtain ⟨hhit, hpix⟩ := writePixel_spec d x y b hx hy
  have hsame : Display.pixel (Display.writePixel d x y b).1 x y = (Display.pixel d x y ^^ b) := by
    rw [hpix x y hx]; simp
  refine ⟨hsame, fun xx yy hxx _ hne => ?_, ?_⟩
  · have : ¬ (xx = x ∧ yy = y) := by omega
    rw [hpix xx yy hxx]; simp [this]
  · rw [hhit, hsame]
    cases Display.pixel d x y <;> simp

/-! ### The driver's operations -/

section Driver

variable {s : State} {bytes : List Byte} {k x y : Nat}

theorem loadRom_of_stepped (h : s.stepped = true) : loadRom bytes s = .refused .loadRomAfterFirstStep := if_pos h

theorem loadRom_of_tooLarge (h : s.stepped = false) (hl : romCapacity < bytes.length) :
    loadRom bytes s = .next (s, .romTooLarge) := by
  simp [loadRom, h, hl]

theorem loadRom_of_fits (h : s.stepped = false) (hl : bytes.length ≤ romCapacity) :
    loadRom bytes s = .next (copyRom bytes s, .romOk) := by
  simp [loadRom, h, Nat.not_lt.mpr hl]

theorem setKey_of_lt (hr : s.status = .running) (hk : k < Config.nkeys) (b : Bool) :
    setKey k b s = .next (s.writeKey k b hk, .unit) := by
  simp only [setKey, hr, dif_pos hk]

theorem setKey_of_le (hr : s.status = .running) (hk : Config.nkeys ≤ k) (b : Bool) :
    setKey k b s = .refused (.keyIndexOutOfRange k) := by
  simp only [setKey, hr, dif_neg (Nat.not_lt.mpr hk)]

theorem getElem_writeKey_keys (hk : k < Config.nkeys) (b : Bool) (j : Fin 16) :
    (s.writeKey k b hk).keys[j] = if j.val = k then b else s.keys[j] := by
  simp only [writeKey_keys, Fin.getElem_fin, Vector.getElem_set, eq_comm]

theorem getPixel_of_lt (hx : x < 64) (hy : y < 32) :
    getPixel x y s = .next (s, .pixel (Display.pixel s.disp x y)) := if_pos ⟨hx, hy⟩

theorem getPixel_of_le (h : 64 ≤ x ∨ 32 ≤ y) : getPixel x y s = .refused (.pixelOutOfRange x y) :=
  if_neg (show ¬ (x < 64 ∧ y < 32) by omega)

end Driver

/-- Settles O55, clause by clause: the copied bytes by `readByte_copyRom`. -/
theorem loadRomIsAllOrNothing : Obligations.LoadRomIsAllOrNothing := fun bytes s =>
  ⟨loadRom_of_stepped, loadRom_of_tooLarge, fun hs hl hwf =>
    ⟨_, loadRom_of_fits hs hl, fun a => readByte_copyRom s bytes a hl hwf⟩⟩

/-- Settles O57, by whether the index names a key. -/
theorem setKeySetsOneKey : Obligations.SetKeySetsOneKey := fun _ b _ hr =>
  ⟨fun hk => ⟨_, setKey_of_lt hr hk b, getElem_writeKey_keys hk b⟩, fun hk => setKey_of_le hr hk b⟩

/-- Settles O58, by whether the pixel lies in the grid. -/
theorem driverReadsChangeNothing : Obligations.DriverReadsChangeNothing := fun _ _ _ =>
  ⟨getPixel_of_lt, getPixel_of_le, rfl⟩

end Sys2Proof.Machine

/-! SUPPORT. The statements about the encoding (30_encoding.md R60 to R71): the round trip both ways, the decoder as tables
of each family's selector, and R62's match and mask columns in terms of the same selectors. -/

namespace Sys2Proof

/-! ### The round trip -/

section RoundTrip

variable {op : Word} {i : Instr}

/-- The word of a well-formed instruction decodes to it: the lemmas of `Laws.RoundTrip`, one per constructor, together (R70). -/
theorem decode_encode : ∀ i : Instr, i.wellFormed = true → decode (encode i) = some i
  | .cls => Laws.RoundTrip.cls
  | .ret => Laws.RoundTrip.ret
  | .sys nnn => Laws.RoundTrip.sys nnn
  | .jp nnn => Laws.RoundTrip.jp nnn
  | .call nnn => Laws.RoundTrip.call nnn
  | .seImm x kk => Laws.RoundTrip.seImm x kk
  | .sneImm x kk => Laws.RoundTrip.sneImm x kk
  | .seReg x y => Laws.RoundTrip.seReg x y
  | .ldImm x kk => Laws.RoundTrip.ldImm x kk
  | .addImm x kk => Laws.RoundTrip.addImm x kk
  | .ldReg x y => Laws.RoundTrip.ldReg x y
  | .orReg x y => Laws.RoundTrip.orReg x y
  | .andReg x y => Laws.RoundTrip.andReg x y
  | .xorReg x y => Laws.RoundTrip.xorReg x y
  | .addReg x y => Laws.RoundTrip.addReg x y
  | .subReg x y => Laws.RoundTrip.subReg x y
  | .shr x y => Laws.RoundTrip.shr x y
  | .subn x y => Laws.RoundTrip.subn x y
  | .shl x y => Laws.RoundTrip.shl x y
  | .sneReg x y => Laws.RoundTrip.sneReg x y
  | .ldI nnn => Laws.RoundTrip.ldI nnn
  | .jpV0 nnn => Laws.RoundTrip.jpV0 nnn
  | .rnd x kk => Laws.RoundTrip.rnd x kk
  | .drw x y n => Laws.RoundTrip.drw x y n
  | .skp x => Laws.RoundTrip.skp x
  | .sknp x => Laws.RoundTrip.sknp x
  | .ldVxDT x => Laws.RoundTrip.ldVxDT x
  | .ldVxK x => Laws.RoundTrip.ldVxK x
  | .ldDTVx x => Laws.RoundTrip.ldDTVx x
  | .ldSTVx x => Laws.RoundTrip.ldSTVx x
  | .addIVx x => Laws.RoundTrip.addIVx x
  | .ldFVx x => Laws.RoundTrip.ldFVx x
  | .ldBVx x => Laws.RoundTrip.ldBVx x
  | .ldMemVx x => Laws.RoundTrip.ldMemVx x
  | .ldVxMem x => Laws.RoundTrip.ldVxMem x

theorem decodeBytes_wordBytes (h : decode op = some i) (rest : List Byte) :
    decodeBytes ((wordBytes op).1 :: (wordBytes op).2 :: rest) = .ok (i, rest) := by
  simp only [decodeBytes, joinBytes_wordBytes, h]

/-- Only SYS can be ill-formed, and the two words it leaves out decode to CLS and RET (R63). -/
theorem wellFormed_of_decode (h : decode op = some i) : i.wellFormed = true := by
  obtain rfl := encode_of_decode h
  cases i
  case sys nnn =>
    have hcls : nnn ≠ 0x0E0#12 := by rintro rfl; exact absurd h (by decide)
    have hret : nnn ≠ 0x0EE#12 := by rintro rfl; exact absurd h (by decide)
    simp [Instr.wellFormed, hcls, hret]
  all_goals rfl

end RoundTrip

/-- Settles O1, by `decode_encode`; the bytes join to the word again. -/
theorem encodedInstructionsDecodeBack : Obligations.EncodedInstructionsDecodeBack := fun i hi =>
  ⟨decode_encode i hi, decodeBytes_wordBytes (decode_encode i hi)⟩

/-- Settles O2: the encoder inverts the decoder, family by family. -/
theorem decodedWordsEncodeBack : Obligations.DecodedWordsEncodeBack := fun _ _ h =>
  ⟨wellFormed_of_decode h, encode_of_decode h⟩

/-- Settles O6, word by word. -/
theorem writtenOutWordsDecode : Obligations.WrittenOutWordsDecode := by
  unfold Obligations.WrittenOutWordsDecode
  decide

/-! ### The decoder, family by family, as tables of the selector -/

section Families

variable {op : Word} {k : Nat}

/-- R62's first level: what each family's word decodes to, in the order of the primary nibble. -/
def familyTable (op : Word) : List (Option Instr) :=
  [decodeFamily0 op, some (.jp (fieldNNN op)), some (.call (fieldNNN op)), some (.seImm (fieldX op) (fieldKK op)),
    some (.sneImm (fieldX op) (fieldKK op)), if fieldN op = 0#4 then some (.seReg (fieldX op) (fieldY op)) else none,
    some (.ldImm (fieldX op) (fieldKK op)), some (.addImm (fieldX op) (fieldKK op)), decodeFamily8 op,
    if fieldN op = 0#4 then some (.sneReg (fieldX op) (fieldY op)) else none, some (.ldI (fieldNNN op)),
    some (.jpV0 (fieldNNN op)), some (.rnd (fieldX op) (fieldKK op)), some (.drw (fieldX op) (fieldY op) (fieldN op)),
    decodeFamilyE op, decodeFamilyF op]

theorem decode_eq_familyTable (op : Word) : decode op = (familyTable op).getD (fieldP op).toNat none := by
  unfold decode
  generalize fieldP op = p
  obtain ⟨⟨k, hk⟩⟩ := p
  interval_cases k <;> rfl

theorem decode_of_div (h : op.toNat / 4096 = k) : decode op = (familyTable op).getD k none := by
  rw [decode_eq_familyTable, toNat_fieldP, h]

theorem decodeFamily8_eq_getD (op : Word) : decodeFamily8 op =
    [some (.ldReg (fieldX op) (fieldY op)), some (.orReg (fieldX op) (fieldY op)), some (.andReg (fieldX op) (fieldY op)),
      some (.xorReg (fieldX op) (fieldY op)), some (.addReg (fieldX op) (fieldY op)),
      some (.subReg (fieldX op) (fieldY op)), some (.shr (fieldX op) (fieldY op)), some (.subn (fieldX op) (fieldY op)),
      none, none, none, none, none, none, some (.shl (fieldX op) (fieldY op)), none].getD (fieldN op).toNat none := by
  unfold decodeFamily8
  generalize fieldN op = n
  obtain ⟨⟨k, hk⟩⟩ := n
  interval_cases k <;> rfl

theorem decodeFamilyE_eq_ite (op : Word) : decodeFamilyE op =
    if (fieldKK op).toNat = 0x9E then some (.skp (fieldX op))
    else if (fieldKK op).toNat = 0xA1 then some (.sknp (fieldX op)) else none := by
  unfold decodeFamilyE
  split <;> simp_all [← BitVec.toNat_inj]

theorem decodeFamilyF_eq_ite (op : Word) : decodeFamilyF op =
    if (fieldKK op).toNat = 0x07 then some (.ldVxDT (fieldX op))
    else if (fieldKK op).toNat = 0x0A then some (.ldVxK (fieldX op))
    else if (fieldKK op).toNat = 0x15 then some (.ldDTVx (fieldX op))
    else if (fieldKK op).toNat = 0x18 then some (.ldSTVx (fieldX op))
    else if (fieldKK op).toNat = 0x1E then some (.addIVx (fieldX op))
    else if (fieldKK op).toNat = 0x29 then some (.ldFVx (fieldX op))
    else if (fieldKK op).toNat = 0x33 then some (.ldBVx (fieldX op))
    else if (fieldKK op).toNat = 0x55 then some (.ldMemVx (fieldX op))
    else if (fieldKK op).toNat = 0x65 then some (.ldVxMem (fieldX op)) else none := by
  unfold decodeFamilyF
  split <;> simp_all [← BitVec.toNat_inj]

/-! ### Which words of the selected families fail (R64 to R68) -/

theorem ite_fieldN_eq_none {i : Instr} :
    (if fieldN op = 0#4 then some i else none) = none ↔ (fieldN op).toNat ∉ [0] := by
  simp [← BitVec.toNat_inj]

theorem decode_eq_none_of_family5 (h : op.toNat / 4096 = 5) : decode op = none ↔ (fieldN op).toNat ∉ [0] := by
  rw [decode_of_div h]; exact ite_fieldN_eq_none

theorem decode_eq_none_of_family9 (h : op.toNat / 4096 = 9) : decode op = none ↔ (fieldN op).toNat ∉ [0] := by
  rw [decode_of_div h]; exact ite_fieldN_eq_none

theorem decode_eq_none_of_family8 (h : op.toNat / 4096 = 8) :
    decode op = none ↔ (fieldN op).toNat ∉ [0, 1, 2, 3, 4, 5, 6, 7, 0xE] := by
  rw [show decode op = decodeFamily8 op from decode_of_div h, decodeFamily8_eq_getD]
  have hn := (fieldN op).isLt
  generalize (fieldN op).toNat = n at hn
  interval_cases n <;> simp

theorem decode_eq_none_of_familyE (h : op.toNat / 4096 = 14) :
    decode op = none ↔ (fieldKK op).toNat ∉ [0x9E, 0xA1] := by
  rw [show decode op = decodeFamilyE op from decode_of_div h, decodeFamilyE_eq_ite]
  simp [ite_eq_iff]

theorem decode_eq_none_of_familyF (h : op.toNat / 4096 = 15) :
    decode op = none ↔ (fieldKK op).toNat ∉ [0x07, 0x0A, 0x15, 0x18, 0x1E, 0x29, 0x33, 0x55, 0x65] := by
  rw [show decode op = decodeFamilyF op from decode_of_div h, decodeFamilyF_eq_ite]
  simp [ite_eq_iff]

end Families

section Counts

open Sys2Proof.Machine (failingWords)

variable {base p : Nat} {sel : List Nat}

theorem failingWords_of_none_iff {count : Nat}
    (h : ∀ k < count, decode (BitVec.ofNat 16 (base + k)) = none ↔ k ∉ sel) :
    failingWords base count = (List.range count).countP (· ∉ sel) :=
  List.countP_congr fun k hk => by simp [h k (List.mem_range.mp hk)]

/-- In a family whose selector is `n`, the words of one pair x, y that fail are those with `n` outside the list. -/
theorem failingWords_of_fieldN (hp : p < 16)
    (hsel : ∀ op : Word, op.toNat / 4096 = p → (decode op = none ↔ (fieldN op).toNat ∉ sel)) (x y : Nibble) :
    failingWords (p * 4096 + x.toNat * 256 + y.toNat * 16) 16 = (List.range 16).countP (· ∉ sel) :=
  failingWords_of_none_iff fun k hk => by
    rw [hsel _ (by rw [BitVec.toNat_ofNat]; omega), toNat_fieldN, BitVec.toNat_ofNat,
      show (p * 4096 + x.toNat * 256 + y.toNat * 16 + k) % 2 ^ 16 % 16 = k by omega]

/-- In a family whose selector is `kk`, the words of one x that fail are those with `kk` outside the list. -/
theorem failingWords_of_fieldKK (hp : p < 16)
    (hsel : ∀ op : Word, op.toNat / 4096 = p → (decode op = none ↔ (fieldKK op).toNat ∉ sel)) (x : Nibble) :
    failingWords (p * 4096 + x.toNat * 256) 256 = (List.range 256).countP (· ∉ sel) :=
  failingWords_of_none_iff fun k hk => by
    rw [hsel _ (by rw [BitVec.toNat_ofNat]; omega), toNat_fieldKK, BitVec.toNat_ofNat,
      show (p * 4096 + x.toNat * 256 + k) % 2 ^ 16 % 256 = k by omega]

theorem failingWords_family5 (x y : Nibble) : failingWords (0x5000 + x.toNat * 256 + y.toNat * 16) 16 = 15 :=
  (failingWords_of_fieldN (p := 5) (by decide) (fun _ => decode_eq_none_of_family5) x y).trans (by decide)

theorem failingWords_family9 (x y : Nibble) : failingWords (0x9000 + x.toNat * 256 + y.toNat * 16) 16 = 15 :=
  (failingWords_of_fieldN (p := 9) (by decide) (fun _ => decode_eq_none_of_family9) x y).trans (by decide)

theorem failingWords_family8 (x y : Nibble) : failingWords (0x8000 + x.toNat * 256 + y.toNat * 16) 16 = 7 :=
  (failingWords_of_fieldN (p := 8) (by decide) (fun _ => decode_eq_none_of_family8) x y).trans (by decide)

theorem failingWords_familyE (x : Nibble) : failingWords (0xE000 + x.toNat * 256) 256 = 254 :=
  (failingWords_of_fieldKK (p := 14) (by decide) (fun _ => decode_eq_none_of_familyE) x).trans (by decide +kernel)

theorem failingWords_familyF (x : Nibble) : failingWords (0xF000 + x.toNat * 256) 256 = 247 :=
  (failingWords_of_fieldKK (p := 15) (by decide) (fun _ => decode_eq_none_of_familyF) x).trans (by decide +kernel)

end Counts

/-- Settles O3: each clause is its entry of the family table, each count the selectors that its family leaves out. -/
theorem familiesDecodeOnTheirSelector : Obligations.FamiliesDecodeOnTheirSelector := by
  refine ⟨fun op x y n kk nnn hx hy hn hkk hnnn => ?_,
    fun x y => ⟨failingWords_family5 x y, failingWords_family9 x y, failingWords_family8 x y⟩,
    fun x => ⟨failingWords_familyE x, failingWords_familyF x⟩⟩
  obtain rfl : x = fieldX op := BitVec.eq_of_toNat_eq (hx.trans (toNat_fieldX op).symm)
  obtain rfl : y = fieldY op := BitVec.eq_of_toNat_eq (hy.trans (toNat_fieldY op).symm)
  obtain rfl : n = fieldN op := BitVec.eq_of_toNat_eq (hn.trans (toNat_fieldN op).symm)
  obtain rfl : kk = fieldKK op := BitVec.eq_of_toNat_eq (hkk.trans (toNat_fieldKK op).symm)
  obtain rfl : nnn = fieldNNN op := BitVec.eq_of_toNat_eq (hnnn.trans (toNat_fieldNNN op).symm)
  have hn0 : fieldN op = 0#4 ↔ (fieldN op).toNat = 0 := BitVec.toNat_inj.symm
  exact ⟨decode_of_div, decode_of_div, decode_of_div, decode_of_div,
    fun h => (decode_of_div h).trans (if_congr hn0 rfl rfl), decode_of_div, decode_of_div,
    fun h => (decode_of_div h).trans (decodeFamily8_eq_getD op),
    fun h => (decode_of_div h).trans (if_congr hn0 rfl rfl), decode_of_div, decode_of_div, decode_of_div, decode_of_div,
    fun h => (decode_of_div h).trans (decodeFamilyE_eq_ite op),
    fun h => (decode_of_div h).trans (decodeFamilyF_eq_ite op)⟩

/-- Settles O4: the family's own branches, the exact words compared as numbers. -/
theorem familyZeroDecodesToClsRetOrSys : Obligations.FamilyZeroDecodesToClsRetOrSys := by
  intro op nnn hop hnnn
  obtain rfl : nnn = fieldNNN op := BitVec.eq_of_toNat_eq (by rw [toNat_fieldNNN]; omega)
  calc decode op = decodeFamily0 op := decode_of_div (k := 0) (by omega)
    _ = _ := if_congr BitVec.toNat_inj.symm rfl (if_congr BitVec.toNat_inj.symm rfl rfl)

/-! ### The match and mask table against the fields (R62) -/

section Rows

variable {op : Word} {p : Nibble}

/-! #### A word under each of the table's masks -/

@[simp] theorem fieldP_and (a b : Word) : fieldP (a &&& b) = fieldP a &&& fieldP b := BitVec.extractLsb'_and

@[simp] theorem fieldX_and (a b : Word) : fieldX (a &&& b) = fieldX a &&& fieldX b := BitVec.extractLsb'_and

@[simp] theorem fieldY_and (a b : Word) : fieldY (a &&& b) = fieldY a &&& fieldY b := BitVec.extractLsb'_and

@[simp] theorem fieldN_and (a b : Word) : fieldN (a &&& b) = fieldN a &&& fieldN b := BitVec.extractLsb'_and

@[simp] theorem fieldKK_and (a b : Word) : fieldKK (a &&& b) = fieldKK a &&& fieldKK b := BitVec.extractLsb'_and

@[simp] theorem fieldNNN_and (a b : Word) : fieldNNN (a &&& b) = fieldNNN a &&& fieldNNN b := BitVec.extractLsb'_and

theorem and_F000 (op : Word) : op &&& 0xF000 = wordPNNN (fieldP op) 0 := by
  rw [← wordPNNN_fields (op &&& 0xF000), fieldP_and, fieldNNN_and,
    show fieldP 0xF000 = BitVec.allOnes 4 by decide, show fieldNNN 0xF000 = 0#12 by decide,
    BitVec.and_allOnes, BitVec.and_zero]
  rfl

theorem and_F00F (op : Word) : op &&& 0xF00F = wordPXYN (fieldP op) 0 0 (fieldN op) := by
  rw [← wordPXYN_fields (op &&& 0xF00F), fieldP_and, fieldX_and, fieldY_and, fieldN_and,
    show fieldP 0xF00F = BitVec.allOnes 4 by decide, show fieldX 0xF00F = 0#4 by decide,
    show fieldY 0xF00F = 0#4 by decide, show fieldN 0xF00F = BitVec.allOnes 4 by decide]
  simp only [BitVec.and_allOnes, BitVec.and_zero]
  rfl

theorem and_F0FF (op : Word) : op &&& 0xF0FF = wordPXKK (fieldP op) 0 (fieldKK op) := by
  rw [← wordPXKK_fields (op &&& 0xF0FF), fieldP_and, fieldX_and, fieldKK_and,
    show fieldP 0xF0FF = BitVec.allOnes 4 by decide, show fieldX 0xF0FF = 0#4 by decide,
    show fieldKK 0xF0FF = BitVec.allOnes 8 by decide]
  simp only [BitVec.and_allOnes, BitVec.and_zero]
  rfl

/-! #### The table, one family at a time -/

/-- The rows of R62 that a word matches. -/
def matchingRows (op : Word) : List Nat := (opcodeTable.filter (·.matchesWord op)).map (·.row)

/-- The rows of R62 whose pattern belongs to one family. -/
def familyRows (p : Nibble) : List OpcodeRow := opcodeTable.filter (fieldP ·.pattern == p)

/-- A row's pattern and the words it matches are of one family, for every mask holds the primary nibble whole. -/
theorem fieldP_of_matchesWord {r : OpcodeRow} (hr : r ∈ opcodeTable) (h : r.matchesWord op = true) :
    fieldP r.pattern = fieldP op := by
  have hmask : ∀ r ∈ opcodeTable, fieldP r.mask = BitVec.allOnes 4 := by decide
  simp only [OpcodeRow.matchesWord, Bool.and_eq_true, beq_iff_eq] at h
  rw [← h.1, fieldP_and, hmask r hr, BitVec.and_allOnes]

theorem matchingRows_of_fieldP (hp : fieldP op = p) :
    matchingRows op = ((familyRows p).filter (·.matchesWord op)).map (·.row) := by
  unfold matchingRows familyRows
  rw [List.filter_filter]
  congr 1
  refine List.filter_congr fun r hr => ?_
  cases h : r.matchesWord op
  · rfl
  · simp [fieldP_of_matchesWord hr h, hp]

theorem matchesWord_iff {r : OpcodeRow} (he : r.exclude = []) :
    r.matchesWord op = true ↔ op &&& r.mask = r.pattern := by
  simp [OpcodeRow.matchesWord, he]

/-- Where one field tells a family's rows apart, a word matches the rows whose pattern has its own value there. -/
theorem matchingRows_of_selector {m : Nat} {sel : Word → BitVec m} (hp : fieldP op = p)
    (hrows : ∀ r ∈ familyRows p, r.exclude = [] ∧ (op &&& r.mask = r.pattern ↔ sel op = sel r.pattern)) :
    matchingRows op = ((familyRows p).filter (sel op == sel ·.pattern)).map (·.row) := by
  rw [matchingRows_of_fieldP hp]
  congr 1
  refine List.filter_congr fun r hr => Bool.eq_iff_iff.mpr ?_
  obtain ⟨hexclude, hsel⟩ := hrows r hr
  rw [matchesWord_iff hexclude, hsel, beq_iff_eq]

theorem matchingRows_of_mask_F000 (hp : fieldP op = p)
    (hrows : ∀ r ∈ familyRows p, r.exclude = [] ∧ r.mask = 0xF000 ∧ r.pattern = wordPNNN p 0) :
    matchingRows op = (familyRows p).map (·.row) := by
  rw [matchingRows_of_fieldP hp, List.filter_eq_self.mpr]
  intro r hr
  obtain ⟨hexclude, hmask, hpat⟩ := hrows r hr
  rw [matchesWord_iff hexclude, hmask, and_F000, hp, hpat]

theorem matchingRows_of_mask_F00F (hp : fieldP op = p) (hrows : ∀ r ∈ familyRows p,
      r.exclude = [] ∧ r.mask = 0xF00F ∧ r.pattern = wordPXYN p 0 0 (fieldN r.pattern)) :
    matchingRows op = ((familyRows p).filter (fieldN op == fieldN ·.pattern)).map (·.row) := by
  refine matchingRows_of_selector hp fun r hr => ?_
  obtain ⟨hexclude, hmask, hpat⟩ := hrows r hr
  refine ⟨hexclude, fun h => ?_, fun h => ?_⟩
  · rw [← h, hmask, and_F00F, fieldN_wordPXYN]
  · rw [hmask, and_F00F, hp, h, ← hpat]

theorem matchingRows_of_mask_F0FF (hp : fieldP op = p) (hrows : ∀ r ∈ familyRows p,
      r.exclude = [] ∧ r.mask = 0xF0FF ∧ r.pattern = wordPXKK p 0 (fieldKK r.pattern)) :
    matchingRows op = ((familyRows p).filter (fieldKK op == fieldKK ·.pattern)).map (·.row) := by
  refine matchingRows_of_selector hp fun r hr => ?_
  obtain ⟨hexclude, hmask, hpat⟩ := hrows r hr
  refine ⟨hexclude, fun h => ?_, fun h => ?_⟩
  · rw [← h, hmask, and_F0FF, fieldKK_wordPXKK]
  · rw [hmask, and_F0FF, hp, h, ← hpat]

/-- A decoder's answer, seen through the table: the row it stands for, or none. -/
def decodedRow (o : Option Instr) : List Nat := (o.map Instr.row).toList

theorem matchingRows_family0 (hp : fieldP op = 0x0#4) : matchingRows op = decodedRow (decodeFamily0 op) := by
  unfold decodeFamily0
  split
  · next h => subst h; decide
  · next hcls =>
    split
    · next h => subst h; decide
    · next hret =>
      have hfull : op &&& 0xFFFF#16 = op := BitVec.and_allOnes
      have hand : op &&& 0xF000#16 = 0x0000#16 := (and_F000 op).trans (hp ▸ by decide)
      rw [matchingRows_of_fieldP hp, show familyRows 0x0#4 = opcodeRows1.take 3 by decide]
      simp [opcodeRows1, OpcodeRow.matchesWord, decodedRow, Instr.row, hcls, hret, hfull, hand]

/-- A family of one row, with `n` 0 as its selector. -/
theorem matchingRows_of_fieldN_zero {k : Nat} {i : Instr} (hp : fieldP op = p)
    (hrows : familyRows p = [⟨k, wordPXYN p 0 0 0, 0xF00F, []⟩]) (hi : i.row = k) :
    matchingRows op = decodedRow (if fieldN op = 0#4 then some i else none) := by
  rw [matchingRows_of_mask_F00F hp (by simp [hrows]), hrows]
  split
  · next hn => simp [decodedRow, hn, hi]
  · next hn => simp [decodedRow, hn]

theorem matchingRows_family8 (hp : fieldP op = 0x8#4) : matchingRows op = decodedRow (decodeFamily8 op) := by
  rw [matchingRows_of_mask_F00F hp (by decide)]
  unfold decodeFamily8
  generalize fieldN op = n
  obtain ⟨⟨k, hk⟩⟩ := n
  interval_cases k <;> rfl

/-- No row of a family is left for a word whose selector is none of theirs. -/
theorem filter_selector_eq_nil {m : Nat} {sel : Word → BitVec m} {b : BitVec m} {bs : List (BitVec m)}
    (hbs : (familyRows p).map (sel ·.pattern) = bs) (hb : b ∉ bs) : (familyRows p).filter (b == sel ·.pattern) = [] :=
  List.filter_eq_nil_iff.mpr fun _ hr h => hb (hbs ▸ beq_iff_eq.mp h ▸ List.mem_map_of_mem hr)

theorem selectors_familyE : (familyRows 0xE#4).map (fieldKK ·.pattern) = [0x9E#8, 0xA1#8] := by decide

theorem selectors_familyF : (familyRows 0xF#4).map (fieldKK ·.pattern) =
    [0x07#8, 0x0A#8, 0x15#8, 0x18#8, 0x1E#8, 0x29#8, 0x33#8, 0x55#8, 0x65#8] := by decide

theorem matchingRows_familyE (hp : fieldP op = 0xE#4) : matchingRows op = decodedRow (decodeFamilyE op) := by
  rw [matchingRows_of_mask_F0FF hp (by decide)]
  unfold decodeFamilyE
  generalize fieldKK op = kk
  split
  case h_3 => rw [filter_selector_eq_nil selectors_familyE (by simp_all)]; rfl
  all_goals rfl

theorem matchingRows_familyF (hp : fieldP op = 0xF#4) : matchingRows op = decodedRow (decodeFamilyF op) := by
  rw [matchingRows_of_mask_F0FF hp (by decide)]
  unfold decodeFamilyF
  generalize fieldKK op = kk
  split
  case h_10 => rw [filter_selector_eq_nil selectors_familyF (by simp_all)]; rfl
  all_goals rfl

/-- Exactly the row of the decoded instruction matches a word, family by family. -/
theorem matchingRows_eq (op : Word) : matchingRows op = decodedRow (decode op) := by
  rw [decode_eq_familyTable]
  cases hp : fieldP op with | ofFin p =>
  obtain ⟨k, hk⟩ := p
  interval_cases k
  · exact matchingRows_family0 hp
  · exact matchingRows_of_mask_F000 (p := 0x1#4) hp (by decide)
  · exact matchingRows_of_mask_F000 (p := 0x2#4) hp (by decide)
  · exact matchingRows_of_mask_F000 (p := 0x3#4) hp (by decide)
  · exact matchingRows_of_mask_F000 (p := 0x4#4) hp (by decide)
  · exact matchingRows_of_fieldN_zero (p := 0x5#4) (k := 8) hp (by decide) rfl
  · exact matchingRows_of_mask_F000 (p := 0x6#4) hp (by decide)
  · exact matchingRows_of_mask_F000 (p := 0x7#4) hp (by decide)
  · exact matchingRows_family8 hp
  · exact matchingRows_of_fieldN_zero (p := 0x9#4) (k := 20) hp (by decide) rfl
  · exact matchingRows_of_mask_F000 (p := 0xA#4) hp (by decide)
  · exact matchingRows_of_mask_F000 (p := 0xB#4) hp (by decide)
  · exact matchingRows_of_mask_F000 (p := 0xC#4) hp (by decide)
  · exact matchingRows_of_mask_F000 (p := 0xD#4) hp (by decide)
  · exact matchingRows_familyE hp
  · exact matchingRows_familyF hp

end Rows

/-- Settles O5: in each family the rows' selectors are the decoder's. -/
theorem decoderAgreesWithMatchAndMaskTable : Obligations.DecoderAgreesWithMatchAndMaskTable :=
  ⟨by decide, matchingRows_eq⟩

end Sys2Proof

/-! SUPPORT. The cycle (40_cycle.md): which of the three ways a running session's step goes, by its condition; the redraw value
of a completed step; what a fault leaves; and the word that `withFetchWord` places. -/

namespace Sys2Proof.Machine

/-! ### Each way a step goes, by its condition -/

section StepByCondition

variable {s : State} {i : Instr}

theorem step_of_fetch_outOfBounds (hr : s.status = .running) (hb : 4096 ≤ s.pc.toNat + 1) :
    step s = trap (.fetchOutOfBounds s.pc) (beginStep s) := by
  rcases step_of_running hr with ⟨-, e⟩ | ⟨hlt, -⟩ | ⟨hlt, -⟩
  · exact e
  · omega
  · omega

theorem step_of_decode_none (hr : s.status = .running) (hb : s.pc.toNat + 1 < 4096) (hd : decode (nextWord s) = none) :
    step s = trap (.decodeFailure (nextWord s) s.pc) (afterFetch s) := by
  rcases step_of_running hr with ⟨hle, -⟩ | ⟨-, -, e⟩ | ⟨-, i, hi, -⟩
  · omega
  · exact e
  · exact nomatch hd.symm.trans hi

theorem step_of_decode_some (hr : s.status = .running) (hb : s.pc.toNat + 1 < 4096) (hd : decode (nextWord s) = some i) :
    step s = exec i (afterFetch s) := by
  rcases step_of_running hr with ⟨hle, -⟩ | ⟨-, hn, -⟩ | ⟨-, j, hj, e⟩
  · omega
  · exact nomatch hd.symm.trans hn
  · obtain rfl := Option.some.inj (hd.symm.trans hj)
    exact e

/-- A running session's step answers a next state (R81). -/
theorem step_next (hr : s.status = .running) : ∃ t, step s = .next t := by
  rcases step_of_running hr with ⟨-, e⟩ | ⟨-, -, e⟩ | ⟨-, i, -, e⟩
  · exact ⟨_, e⟩
  · exact ⟨_, e⟩
  · rw [e]; exact exec_next i _

end StepByCondition

/-- Settles O7: the third way of `step_of_running`. -/
theorem stepRunsTheDecodedInstruction : Obligations.StepRunsTheDecodedInstruction := fun _ _ => step_of_decode_some

/-- Settles O9: the first way of `step_of_running`. -/
theorem fetchOutsideRamHalts : Obligations.FetchOutsideRamHalts := fun _ => step_of_fetch_outOfBounds

/-- Settles O10: the second way of `step_of_running`. -/
theorem undecodableWordHalts : Obligations.UndecodableWordHalts := by
  rintro s op hr hb (rfl : op = nextWord s) hd
  exact step_of_decode_none hr hb hd

/-! ### A halted session -/

section Halted

variable {s : State} {f : FaultRecord}

theorem driveStep_of_halted (h : s.status = .halted f) : driveStep s = .fault (.sessionHalted f) := by
  unfold driveStep; rw [step_of_halted h]

theorem tickTimers_of_halted (h : s.status = .halted f) : tickTimers s = .refused .sessionNotRunning := by
  unfold tickTimers; rw [h]

theorem setKey_of_halted (h : s.status = .halted f) (k : Nat) (b : Bool) :
    setKey k b s = .refused .sessionNotRunning := by
  unfold setKey; rw [h]

end Halted

/-- Settles O11, operation by operation. -/
theorem haltedSessionHasNoMove : Obligations.HaltedSessionHasNoMove := fun _ _ h =>
  ⟨step_of_halted h, driveStep_of_halted h, tickTimers_of_halted h, setKey_of_halted h⟩

/-! ### The redraw value -/

/-- What execute returns when the instruction completes (R82; D13, log entry 20). -/
def asksRedraw : Instr → Bool
  | .cls => true
  | .drw _ _ _ => true
  | _ => false

section Redraw

variable {i : Instr} {s t : State}

theorem redraw_of_complete {r : Bool} {u : State} (h : complete r u = .next t) : t.redraw = some r := by
  rw [complete_eq_next.mp h]

theorem halts_or_redraws_of_unimplemented {op : Word} (h : unimplemented op s = .next t) :
    (∃ f, t = raiseFault f s) ∨ t.redraw = some false := by
  rcases unimplemented_eq_next.mp h with ⟨-, rfl⟩ | ⟨-, rfl⟩
  · exact .inr rfl
  · exact .inl ⟨_, rfl⟩

/-- Execute takes a fault or returns the redraw value of its instruction. -/
theorem exec_halts_or_redraws (h : exec i s = .next t) :
    (∃ f, t = raiseFault f s) ∨ t.redraw = some (asksRedraw i) := by
  cases i with
  | ret =>
    rcases execRet_eq_next.mp h with ⟨w, u, -, rfl⟩ | ⟨-, rfl⟩
    · exact .inr rfl
    · exact .inl ⟨_, rfl⟩
  | call nnn =>
    rcases execCall_eq_next.mp h with ⟨u, -, rfl⟩ | ⟨-, rfl⟩
    · exact .inr rfl
    · exact .inl ⟨_, rfl⟩
  | drw x y n =>
    rcases execDrw_eq_next.mp h with ⟨-, rfl⟩ | ⟨-, rfl⟩
    · exact .inl ⟨_, rfl⟩
    · exact .inr rfl
  | cls => exact .inr (redraw_of_complete h)
  | jp nnn => exact .inr (redraw_of_complete h)
  | ldI nnn => exact .inr (redraw_of_complete h)
  | seImm x kk => exact .inr (redraw_of_complete h)
  | sneImm x kk => exact .inr (redraw_of_complete h)
  | seReg x y => exact .inr (redraw_of_complete h)
  | sneReg x y => exact .inr (redraw_of_complete h)
  | ldImm x kk => exact .inr (redraw_of_complete h)
  | addImm x kk => exact .inr (redraw_of_complete h)
  | ldReg x y => exact .inr (redraw_of_complete h)
  | orReg x y => exact .inr (redraw_of_complete h)
  | andReg x y => exact .inr (redraw_of_complete h)
  | xorReg x y => exact .inr (redraw_of_complete h)
  | addReg x y => exact .inr (redraw_of_complete h)
  | subReg x y => exact .inr (redraw_of_complete h)
  | _ => exact halts_or_redraws_of_unimplemented h

/-- A step takes a fault, or leaves the session running with the redraw value of the decoded instruction. -/
theorem step_halts_or_redraws (h : step s = .next t) :
    (∃ f u, t = raiseFault f u) ∨
    ∃ i, decode (nextWord s) = some i ∧ t.status = .running ∧ t.redraw = some (asksRedraw i) := by
  obtain ⟨hr, ⟨-, rfl⟩ | ⟨-, -, rfl⟩ | ⟨-, i, hd, he⟩⟩ := step_cases h
  · exact .inl ⟨_, _, rfl⟩
  · exact .inl ⟨_, _, rfl⟩
  · rcases exec_halts_or_completes he with ⟨f, rfl⟩ | hc
    · exact .inl ⟨f, _, rfl⟩
    · rcases exec_halts_or_redraws he with ⟨f, rfl⟩ | hredraw
      · exact .inl ⟨f, _, rfl⟩
      · exact .inr ⟨i, hd, hc.status.trans hr, hredraw⟩

theorem eq_drw_of_decode {op : Word} (hd : decode op = some i) (h : op.toNat / 4096 = 13) :
    i = .drw (fieldX op) (fieldY op) (fieldN op) := by
  unfold decode at hd
  rw [fieldP_of_div h] at hd
  exact (Option.some.inj hd).symm

/-- The words of the two instructions that ask for a redraw: 00E0 and Dxyn. -/
theorem asksRedraw_iff_of_decode {op : Word} (hd : decode op = some i) :
    asksRedraw i = true ↔ op = 0x00E0 ∨ op.toNat / 4096 = 13 := by
  constructor
  · intro hi
    obtain rfl := encode_of_decode hd
    cases i with
    | cls => exact .inl rfl
    | drw x y n => exact .inr (by simp [encode])
    | _ => exact nomatch hi
  · rintro (rfl | hp)
    · obtain rfl : Instr.cls = i := Option.some.inj hd
      rfl
    · rw [eq_drw_of_decode hd hp]
      rfl

end Redraw

/-- Settles O12: a next state by `exec_next`, and its redraw value by `exec_halts_or_redraws`. -/
theorem everyStepFinishes : Obligations.EveryStepFinishes := by
  intro s hr
  obtain ⟨t, h⟩ := step_next hr
  obtain ⟨-, -, -, -, hstepped, -⟩ := step_keepsUnwritten h
  refine ⟨t, h, hstepped, ?_⟩
  rcases step_halts_or_redraws h with ⟨f, u, rfl⟩ | ⟨i, -, hrun, hredraw⟩
  · exact .inr ⟨f, rfl, rfl⟩
  · exact .inl ⟨hrun, _, hredraw⟩

/-- Settles O16: a completed step returns `asksRedraw` of its instruction, and the word says which that is. -/
theorem redrawExactlyForClearAndDraw : Obligations.RedrawExactlyForClearAndDraw := by
  rintro s t w h hr (rfl : w = nextWord s)
  rcases step_halts_or_redraws h with ⟨f, u, rfl⟩ | ⟨i, hd, -, hredraw⟩
  · exact nomatch hr
  · rw [hredraw, Bool.eq_iff_iff.mpr ((asksRedraw_iff_of_decode hd).trans decide_eq_true_iff.symm)]

/-! ### What a fault leaves -/

section Faults

variable {i : Instr} {s t : State} {f : FaultRecord}

/-- A faulting execute changes nothing else, and its record names the instruction's address (R83, R154). -/
theorem exec_halts_precisely (h : exec i s = .next t) (hr : s.status = .running) (hf : t.status = .halted f) :
    t = raiseFault f s ∧ f.addr = instrAddr s := by
  obtain ⟨ht, ⟨rfl, -⟩ | ⟨rfl, -⟩ | ⟨x, y, n, rfl, -⟩ | ⟨rfl, -⟩⟩ := exec_halts h hr hf
  all_goals exact ⟨ht, rfl⟩

/-- A faulting step: the fault of the instruction at `pc`, taken where fetch left the state (D21, log entry 25). -/
theorem step_halts_precisely (h : step s = .next t) (hf : t.status = .halted f) :
    f.addr = s.pc ∧
    t = raiseFault f { beginStep s with pc := if s.pc.toNat + 1 < 4096 then s.pc + 2 else s.pc } := by
  obtain ⟨hr, ⟨hb, rfl⟩ | ⟨hb, -, rfl⟩ | ⟨hb, i, -, he⟩⟩ := step_cases h
  · cases hf
    rw [if_neg (Nat.not_lt.mpr hb)]
    exact ⟨rfl, rfl⟩
  · cases hf
    rw [if_pos hb]
    exact ⟨rfl, rfl⟩
  · obtain ⟨rfl, haddr⟩ := exec_halts_precisely he hr hf
    rw [if_pos hb]
    exact ⟨haddr.trans instrAddr_afterFetch, rfl⟩

end Faults

/-- Settles O13, field by field of `step_halts_precisely`. -/
theorem faultsArePrecise : Obligations.FaultsArePrecise := by
  intro s t f h hf
  obtain ⟨haddr, rfl⟩ := step_halts_precisely h hf
  exact ⟨haddr, rfl, fun _ _ => rfl, rfl, ⟨rfl, rfl⟩, rfl, rfl, fun _ => rfl, fun _ _ _ _ => rfl, rfl, rfl⟩

/-! ### The placed word -/

section PlacedWord

variable {s : State} {a : Nat} (w : Word)

/-- A stored word reads back. -/
theorem readWord_storeWord_same (ha : a + 2 ≤ ramSize) (hwf : Memory.wf s.params.fontData s.mem) :
    (s.storeWord a w).readWord a = w := by
  unfold State.readWord
  rw [readByte_storeWord s a a w ha hwf, readByte_storeWord s a (a + 1) w ha hwf, if_pos (by omega), if_pos (by omega),
    Nat.sub_self, Nat.add_sub_cancel_left]
  exact joinBytes_wordBytes w

theorem readByte_storeWord_other (ha : a + 2 ≤ ramSize) (hwf : Memory.wf s.params.fontData s.mem) {b : Nat}
    (hb : b ≠ a) (hb' : b ≠ a + 1) : (s.storeWord a w).readByte b = s.readByte b := by
  rw [readByte_storeWord s a b w ha hwf, if_neg (by omega)]

/-- Where `withFetchWord` places its word: at `pc`, or at `PROGRAM_START` when `pc`'s two bytes do not lie in RAM. -/
def placeAddr (s : State) : Word := if s.pc.toNat + 1 < 4096 then s.pc else 0x200

theorem placeAddr_inBounds (s : State) : (placeAddr s).toNat + 1 < 4096 := by
  unfold placeAddr
  split
  · assumption
  · decide

theorem withFetchWord_eq (s : State) (nbits k : Nat) : s.withFetchWord nbits k =
    { s.storeWord (placeAddr s).toNat (tableWord nbits k) with pc := placeAddr s, status := .running } := by
  have ha : (if fetchInBounds s.pc then s.pc else BitVec.ofNat 16 programStart) = placeAddr s := by
    simp only [fetchInBounds_iff, placeAddr]
    rfl
  unfold State.withFetchWord
  rw [ha]

end PlacedWord

/-- Settles O60: the stored word is the one fetched, and the step runs what it decodes to. -/
theorem placedWordIsTheNextToRun : Obligations.PlacedWordIsTheNextToRun := by
  rintro s w i a hwf hw (rfl : a = placeAddr s)
  have hb := placeAddr_inBounds s
  have hram : (placeAddr s).toNat + 2 ≤ ramSize := hb
  rw [decodeTableWord_eq] at hw
  rw [withFetchWord_eq]
  refine ⟨_, step_of_decode_some rfl hb ?_, fun b hne hne' => readByte_storeWord_other (tableWord 16 w) hram hwf hne hne'⟩
  exact (congrArg decode (readWord_storeWord_same (tableWord 16 w) hram hwf)).trans hw

end Sys2Proof.Machine

/-! SUPPORT. Control flow (41_control_flow.md): what push and pop answer by SP, the equations of JP, CALL and RET on a
completed and on a faulting execute, and the one outcome of the four skips. -/

namespace Sys2Proof.Machine

/-! ### Push and pop, by SP -/

section Stack

variable {s u p : State} {w : Word}

theorem push_of_lt (h : s.sp.val < 16) (w : Word) :
    s.push w = some { s with stack := s.stack.set s.sp.val w h, sp := ⟨s.sp.val + 1, Nat.succ_lt_succ h⟩ } :=
  dif_pos h

theorem pop_of_pos (h : 0 < s.sp.val) :
    s.pop = some (s.stack[s.sp.val - 1], { s with sp := ⟨s.sp.val - 1, by omega⟩ }) :=
  dif_pos h

/-- Pop undoes push, also from a state that has kept the stack meanwhile. -/
theorem pop_of_push (hp : s.push w = some p) (hk : KeepsStack p u) : u.pop = some (w, { u with sp := s.sp }) := by
  obtain ⟨hlt, rfl⟩ := push_eq_some hp
  obtain ⟨hsp, hstack⟩ := hk
  have hval : u.sp.val = s.sp.val + 1 := congrArg Fin.val hsp
  rw [pop_of_pos (by omega)]
  simp [hval, hstack]

end Stack

/-! ### Jump, call and return -/

section Transfers

variable {s u : State} {w : Word} {nnn : Addr}

/-- A state that differs in `pc`, the call stack and the redraw value alone. -/
theorem keepsOutsideControl_of_update (s : State) (pc : Word) (sp : Fin 17) (stack : Vector Word 16) (r : Option Bool) :
    KeepsOutsideControl s { s with pc := pc, sp := sp, stack := stack, redraw := r } :=
  ⟨fun _ _ => rfl, rfl, fun _ _ _ _ => rfl, rfl, rfl, rfl, rfl, rfl, rfl, fun _ => rfl⟩

theorem exec_jp (nnn : Addr) (s : State) :
    exec (.jp nnn) s = .next { s with pc := zext16 nnn, redraw := some false } := rfl

theorem exec_call_of_push (h : s.push s.pc = some u) :
    exec (.call nnn) s = .next { u with pc := zext16 nnn, redraw := some false } :=
  execCall_eq_next.mpr (.inl ⟨u, h, rfl⟩)

theorem exec_call_of_full (h : s.sp.val = 16) :
    exec (.call nnn) s = .next (raiseFault (.stackOverflow (encode (.call nnn)) (instrAddr s)) s) :=
  execCall_eq_next.mpr (.inr ⟨push_eq_none.mpr h, rfl⟩)

theorem exec_ret_of_pop (h : s.pop = some (w, u)) : exec .ret s = .next { u with pc := w, redraw := some false } :=
  execRet_eq_next.mpr (.inl ⟨w, u, h, rfl⟩)

theorem exec_ret_of_empty (h : s.sp.val = 0) :
    exec .ret s = .next (raiseFault (.stackUnderflow (encode .ret) (instrAddr s)) s) :=
  execRet_eq_next.mpr (.inr ⟨pop_eq_none.mpr h, rfl⟩)

theorem eq_encode_call {op : Word} (h : op.toNat = 0x2000 + nnn.toNat) : op = encode (.call nnn) :=
  BitVec.eq_of_toNat_eq (h.trans (toNat_wordPNNN 0x2#4 nnn).symm)

end Transfers

/-- Settles O41: the value the CALL pushed, the address after it, is the one the RET pops. -/
theorem callThenReturnComesBack : Obligations.CallThenReturnComesBack := by
  intro s t u v nnn hs hspc hfree hcall hst hk hu hupc hret huv
  have hpush := push_of_lt (s := afterFetch s) hfree (s.pc + 2)
  rw [step_of_decode_some hs hspc hcall, exec_call_of_push hpush] at hst
  obtain rfl := Host.Outcome.next.inj hst
  have hpop : (afterFetch u).pop = some (s.pc + 2, { afterFetch u with sp := s.sp }) :=
    pop_of_push (s := afterFetch s) hpush hk
  rw [step_of_decode_some hu hupc hret, exec_ret_of_pop hpop] at huv
  obtain rfl := Host.Outcome.next.inj huv
  exact ⟨toNat_zext16 nnn, rfl, rfl, hu⟩

/-- Settles O37, by the equation of JP. -/
theorem jumpSetsProgramCounter : Obligations.JumpSetsProgramCounter := fun nnn s =>
  ⟨_, exec_jp nnn s, toNat_zext16 nnn, ⟨rfl, rfl⟩, keepsOutsideControl_of_update s _ _ _ _, rfl⟩

/-- Settles O38: the push of a free slot writes that slot alone. -/
theorem callPushesThenJumps : Obligations.CallPushesThenJumps := fun nnn s h =>
  ⟨_, exec_call_of_push (push_of_lt h s.pc), toNat_zext16 nnn, rfl, Vector.getElem_set_self h,
    fun j hj => Vector.getElem_set_ne h j.isLt hj.symm, keepsOutsideControl_of_update s _ _ _ _, rfl⟩

/-- Settles O39: the pop of an occupied slot reads it and writes SP alone. -/
theorem returnRestoresProgramCounter : Obligations.ReturnRestoresProgramCounter := by
  intro s h
  refine ⟨_, exec_ret_of_pop (pop_of_pos h), rfl, fun j hj => ?_, rfl, keepsOutsideControl_of_update s _ _ _ _, rfl⟩
  simp only [Fin.getElem_fin, hj]

/-- Settles O40: push fails at SP 16 and pop at SP 0, and the record's word is the instruction's. -/
theorem stackFaultsHaltUnchanged : Obligations.StackFaultsHaltUnchanged := by
  refine fun s => ⟨fun h nnn op hop => ?_, fun h => exec_ret_of_empty h⟩
  rw [eq_encode_call hop]
  exact exec_call_of_full h

/-! ### The skips -/

section Skips

/-- Every skip completes, and writes `pc` alone. -/
theorem skipIf_completes {s : State} {c : Bool} {n : Nat} (hpc : (if c then s.pc + 2 else s.pc).toNat = n) :
    ∃ t, skipIf c s = .next t ∧ t.pc.toNat = n ∧ KeepsStack s t ∧ KeepsOutsideControl s t ∧ t.redraw = some false :=
  ⟨_, skipIf_eq_next.mpr rfl, hpc, ⟨rfl, rfl⟩, keepsOutsideControl_of_update s _ _ _ _, rfl⟩

variable (a b : Byte) (w : Word)

theorem toNat_skip_of_beq :
    (if a == b then w + 2 else w).toNat = if a.toNat = b.toNat then (w.toNat + 2) % 65536 else w.toNat := by
  simp only [beq_iff_eq, ← BitVec.toNat_inj (x := a)]
  split <;> rfl

theorem toNat_skip_of_bne :
    (if a != b then w + 2 else w).toNat = if a.toNat = b.toNat then w.toNat else (w.toNat + 2) % 65536 := by
  simp only [bne_iff_ne, ne_eq, ite_not, ← BitVec.toNat_inj (x := a)]
  split <;> rfl

end Skips

/-- Settles O42: one skips when the register equals the immediate, the other when it does not. -/
theorem skipOnImmediate : Obligations.SkipOnImmediate := fun x kk s =>
  ⟨skipIf_completes (toNat_skip_of_beq (s.readV x) kk s.pc), skipIf_completes (toNat_skip_of_bne (s.readV x) kk s.pc)⟩

/-- Settles O43: one skips when the two registers are equal, the other when they are not. -/
theorem skipOnRegisters : Obligations.SkipOnRegisters := fun x y s =>
  ⟨skipIf_completes (toNat_skip_of_beq (s.readV x) (s.readV y) s.pc),
    skipIf_completes (toNat_skip_of_bne (s.readV x) (s.readV y) s.pc)⟩

end Sys2Proof.Machine

/-! SUPPORT. Loads and arithmetic (42_alu.md): what a completed execute leaves after the write of one register, and after
the result and the flag. -/

namespace Sys2Proof.Machine

section Writes

variable {s u : State} {x : Nibble} {b res f : Byte}

/-- A state that differs in its registers alone, whatever redraw value it completes with. -/
theorem keepsOutsideRegs_of_v (hu : u = { s with v := u.v }) (r : Option Bool) :
    KeepsOutsideRegs s { u with redraw := r } := by
  rw [hu]
  exact ⟨rfl, rfl, ⟨rfl, rfl⟩, fun _ _ _ _ => rfl, rfl, rfl, rfl, rfl, rfl, rfl, fun _ => rfl⟩

/-- Writing one register completes, and what held of the value written holds of that register. -/
theorem writeV_completes (P : Byte → Prop) (hb : P b) :
    ∃ t, complete false (s.writeV x b) = .next t ∧
      P (t.readV x) ∧ KeepsRegsExcept [x] s t ∧ KeepsOutsideRegs s t ∧ t.redraw = some false := by
  have hx : P ((s.writeV x b).readV x) := (readV_writeV_same s x b).symm ▸ hb
  exact ⟨_, complete_eq_next.mpr rfl, hx, keepsRegsExcept_writeV x b, keepsOutsideRegs_of_v rfl _, rfl⟩

theorem writeV_comm {y : Nibble} {c : Byte} (h : x ≠ y) :
    (s.writeV x b).writeV y c = (s.writeV y c).writeV x b := by
  have hne : x.toNat ≠ y.toNat := fun e => h (BitVec.eq_of_toNat_eq e)
  exact congrArg (fun v => { s with v := v }) (Vector.set_comm _ _ hne)

/-! ### The registers after `write_result_and_flag` (R104) -/

theorem readV_writeResultAndFlag_result (hx : x ≠ vf) : (s.writeResultAndFlag x res f).readV x = res := by
  rw [writeResultAndFlag_readV, if_neg hx, if_neg hx, if_pos rfl]

theorem readV_writeResultAndFlag_flag (hx : x ≠ vf) : (s.writeResultAndFlag x res f).readV vf = f := by
  rw [writeResultAndFlag_readV, if_neg hx, if_pos rfl]

/-- With `x = 0xF` VF holds the later of the two writes. -/
theorem readV_writeResultAndFlag_vf :
    (s.writeResultAndFlag vf res f).readV vf = laterWrite s.params.flagOrder res f := by
  rw [writeResultAndFlag_readV, if_pos rfl, if_pos rfl]

/-- Writing result and flag completes: `P` of the result and `Q` of the flag hold of Vx and VF, or of VF by the order of the
writes when x is F. -/
theorem writeResultAndFlag_completes (P Q : Byte → Prop) (hres : P res) (hflag : Q f) :
    ∃ t, complete false (s.writeResultAndFlag x res f) = .next t ∧
      (x ≠ vf → P (t.readV x) ∧ Q (t.readV vf)) ∧
      (x = vf → s.params.flagOrder = .flagThenResult → P (t.readV vf)) ∧
      (x = vf → s.params.flagOrder = .resultThenFlag → Q (t.readV vf)) ∧
      KeepsRegsExcept [x, vf] s t ∧ KeepsOutsideRegs s t ∧ t.redraw = some false := by
  refine ⟨_, complete_eq_next.mpr rfl, fun hx => ⟨?_, ?_⟩, ?_, ?_, keepsRegsExcept_writeResultAndFlag x res f,
    keepsOutsideRegs_of_v (writeResultAndFlag_eq s x res f) _, rfl⟩
  · exact (readV_writeResultAndFlag_result hx).symm ▸ hres
  · exact (readV_writeResultAndFlag_flag hx).symm ▸ hflag
  · rintro rfl ho
    have hlater : laterWrite s.params.flagOrder res f = res := by rw [ho]; rfl
    exact (readV_writeResultAndFlag_vf.trans hlater).symm ▸ hres
  · rintro rfl ho
    have hlater : laterWrite s.params.flagOrder res f = f := by rw [ho]; rfl
    exact (readV_writeResultAndFlag_vf.trans hlater).symm ▸ hflag

/-- The wrapped difference, with 256 lent so that the subtraction is exact (R102). -/
theorem toNat_sub_byte (vx vy : Byte) : (vx - vy).toNat = (vx.toNat + 256 - vy.toNat) % 256 := by
  have := vy.isLt
  rw [BitVec.toNat_sub]
  omega

end Writes

/-- Settles O30: one register is written, with the immediate. -/
theorem loadImmediate : Obligations.LoadImmediate := fun _ kk _ =>
  writeV_completes (· = kk) rfl

/-- Settles O31: one register is written, with the wrapped sum. -/
theorem addImmediateWrapsWithoutFlag : Obligations.AddImmediateWrapsWithoutFlag := fun x kk s =>
  writeV_completes (·.toNat = ((s.readV x).toNat + kk.toNat) % 256) (BitVec.toNat_add _ _)

/-- Settles O32: one register is written, with the other's value. -/
theorem copyRegister : Obligations.CopyRegister := fun _ y s =>
  writeV_completes (· = s.readV y) rfl

/-- Settles O33: one register is written, with the word whose bits the library gives. -/
theorem bitwiseOperations : Obligations.BitwiseOperations := fun x y s =>
  ⟨writeV_completes (fun v => ∀ b, b < 8 → v.getLsbD b = ((s.readV x).getLsbD b || (s.readV y).getLsbD b))
      fun _ _ => BitVec.getLsbD_or,
    writeV_completes (fun v => ∀ b, b < 8 → v.getLsbD b = ((s.readV x).getLsbD b && (s.readV y).getLsbD b))
      fun _ _ => BitVec.getLsbD_and,
    writeV_completes (fun v => ∀ b, b < 8 → v.getLsbD b = ((s.readV x).getLsbD b ^^ (s.readV y).getLsbD b))
      fun _ _ => BitVec.getLsbD_xor⟩

/-- Settles O34: the result is the wrapped sum and the flag the carry of the exact one. -/
theorem addWithCarry : Obligations.AddWithCarry := fun x y s =>
  writeResultAndFlag_completes (·.toNat = ((s.readV x).toNat + (s.readV y).toNat) % 256)
    (· = if 255 < (s.readV x).toNat + (s.readV y).toNat then 1 else 0) (toNat_exactSum _ _) (carryFlag_eq _ _)

/-- Settles O35: the result is the wrapped difference and the flag says that nothing was borrowed. -/
theorem subtractWithNoBorrowFlag : Obligations.SubtractWithNoBorrowFlag := fun x y s =>
  writeResultAndFlag_completes (·.toNat = ((s.readV x).toNat + 256 - (s.readV y).toNat) % 256)
    (· = if (s.readV y).toNat ≤ (s.readV x).toNat then 1 else 0) (toNat_sub_byte _ _) (noBorrowFlag_eq _ _)

/-- Settles O36: R104's two assignments in each order, and two writes of different registers commute. -/
theorem resultAndFlagWrittenInOrder : Obligations.ResultAndFlagWrittenInOrder := fun s x res f =>
  ⟨writeResultAndFlag_flagThenResult s x res f, writeResultAndFlag_resultThenFlag s x res f,
    fun hx => writeV_comm hx.symm⟩

end Sys2Proof.Machine

/-! SUPPORT. Index and display (43_index_display.md): the equations of LD I, CLS and DRW, what a second draw of one sprite
does, and that no other instruction writes the display. -/

namespace Sys2Proof.Machine

/-! ### Frames -/

section Frames

variable {i : Instr} {s t : State} {c : Bool}

/-- A completed instruction keeps what no completed instruction touches. -/
theorem keepsRest_of_exec (h : exec i s = .next t) (hstatus : t.status = s.status) : KeepsRest s t := by
  obtain ⟨hdt, hst, hmem, hkeys, hstepped, hparams⟩ := exec_keeps i h
  exact ⟨hdt, hst, hkeys, hstatus, hstepped, hparams, keepsMemory_of_mem hmem hparams⟩

theorem disp_of_complete {u : State} (h : complete c u = .next t) (hu : u.disp = s.disp) : t.disp = s.disp := by
  rw [complete_eq_next.mp h]
  exact hu

theorem disp_of_skipIf (h : skipIf c s = .next t) : t.disp = s.disp := by
  rw [skipIf_eq_next.mp h]

theorem disp_of_unimplemented {op : Word} (h : unimplemented op s = .next t) : t.disp = s.disp := by
  rcases unimplemented_eq_next.mp h with ⟨-, rfl⟩ | ⟨-, rfl⟩ <;> rfl

/-- An instruction that asks for no redraw keeps the display (R113). -/
theorem exec_keeps_disp (h : exec i s = .next t) (hi : asksRedraw i = false) : t.disp = s.disp := by
  cases i with
  | cls => exact nomatch hi
  | drw x y n => exact nomatch hi
  | ret =>
    rcases execRet_eq_next.mp h with ⟨w, u, hp, rfl⟩ | ⟨-, rfl⟩
    · obtain ⟨_, -, rfl⟩ := pop_eq_some hp
      rfl
    · rfl
  | call nnn =>
    rcases execCall_eq_next.mp h with ⟨u, hp, rfl⟩ | ⟨-, rfl⟩
    · obtain ⟨_, rfl⟩ := push_eq_some hp
      rfl
    · rfl
  | jp _ | ldI _ | ldImm _ _ | addImm _ _ | ldReg _ _ | orReg _ _ | andReg _ _ | xorReg _ _ =>
    exact disp_of_complete h rfl
  | addReg x _ | subReg x _ => exact disp_of_complete h (writeResultAndFlag_disp s x _ _)
  | seImm _ _ | sneImm _ _ | seReg _ _ | sneReg _ _ => exact disp_of_skipIf h
  | _ => exact disp_of_unimplemented h

end Frames

/-- Settles O17: a fault keeps the display, and of the decoded instructions those that ask for a redraw alone write it. -/
theorem onlyClearAndDrawChangeDisplay : Obligations.OnlyClearAndDrawChangeDisplay := by
  rintro s t w h (rfl : w = nextWord s) hcls hdrw
  obtain ⟨-, ⟨-, rfl⟩ | ⟨-, -, rfl⟩ | ⟨-, i, hd, he⟩⟩ := step_cases h
  · rfl
  · rfl
  · have hi : asksRedraw i = false := by
      rw [Bool.eq_false_iff, ne_eq, asksRedraw_iff_of_decode hd]
      exact not_or.mpr ⟨hcls, hdrw⟩
    have hkeep : t.disp = (afterFetch s).disp := exec_keeps_disp he hi
    exact hkeep

/-! ### LD I and CLS -/

theorem exec_ldI (nnn : Addr) (s : State) :
    exec (.ldI nnn) s = .next { s with i := zext16 nnn, redraw := some false } := rfl

theorem exec_cls (s : State) : exec .cls s = .next { s with disp := Display.cleared, redraw := some true } := rfl

/-- Settles O44, by the equation of LD I. -/
theorem loadIndex : Obligations.LoadIndex := fun nnn s =>
  have h := exec_ldI nnn s
  ⟨_, h, toNat_zext16 nnn, keepsRegsExcept_refl [], rfl, ⟨rfl, rfl⟩, fun _ _ _ _ => rfl, keepsRest_of_exec h rfl, rfl⟩

/-- Settles O45, by the equation of CLS. -/
theorem clearDisplayZeroesEveryPixel : Obligations.ClearDisplayZeroesEveryPixel := fun s =>
  have h := exec_cls s
  ⟨_, h, fun x y _ _ => pixel_cleared x y, keepsRegsExcept_refl [], rfl, rfl, ⟨rfl, rfl⟩, keepsRest_of_exec h rfl, rfl⟩

/-! ### The same sprite composited twice (R111, R112) -/

section Twice

variable (vx vy : Byte) (rows : List Byte) (d : Display)

/-- XOR with one mask twice is the identity. -/
theorem composite_composite_display : (composite vx vy rows (composite vx vy rows d).1).1 = d := by
  refine display_ext fun xx yy hx hy => ?_
  obtain ⟨hon, hoff⟩ := (composite_spec vx vy rows d).1 xx yy hx hy
  obtain ⟨hon', hoff'⟩ := (composite_spec vx vy rows (composite vx vy rows d).1).1 xx yy hx hy
  by_cases hc : spriteCovers vx vy rows xx yy
  · rw [hon' hc, hon hc, Bool.not_not]
  · rw [hoff' hc, hoff hc]

/-- The first draw inverts the covered pixels, so the second hits where one was 0. -/
theorem composite_composite_collides_iff :
    (composite vx vy rows (composite vx vy rows d).1).2 = true ↔
      ∃ xx yy, xx < 64 ∧ yy < 32 ∧ spriteCovers vx vy rows xx yy ∧ Display.pixel d xx yy = false := by
  rw [(composite_spec vx vy rows (composite vx vy rows d).1).2]
  refine exists₂_congr fun xx yy => and_congr_right fun hx => and_congr_right fun hy => and_congr_right fun hc => ?_
  rw [((composite_spec vx vy rows d).1 xx yy hx hy).1 hc, Bool.not_eq_true']

end Twice

/-! ### DRW -/

/-- What DRW leaves when its bytes lie in RAM (R107). -/
def drawn (x y n : Nibble) (s : State) : State :=
  let canvas := composite (s.readV x) (s.readV y) (spriteRows s n) s.disp
  { (s.writeV vf (flagByte canvas.2)).setDisp canvas.1 with redraw := some true }

section Draw

variable {x y n k : Nibble} {s : State}

theorem exec_drw_of_inBounds (h : n.toNat = 0 ∨ s.i.toNat + n.toNat - 1 < 4096) :
    exec (.drw x y n) s = .next (drawn x y n s) :=
  execDrw_eq_next.mpr (.inr ⟨spriteOutOfBounds_eq_false.mpr h, rfl⟩)

theorem exec_drw_of_outOfBounds (hn : 0 < n.toNat) (h : 4096 ≤ s.i.toNat + n.toNat - 1) :
    exec (.drw x y n) s = .next (raiseFault (.spriteOutOfBounds (encode (.drw x y n)) (instrAddr s) s.i n) s) :=
  execDrw_eq_next.mpr (.inl ⟨spriteOutOfBounds_eq_true.mpr ⟨hn, h⟩, rfl⟩)

theorem eq_encode_drw {op : Word} (h : op.toNat = 0xD000 + x.toNat * 256 + y.toNat * 16 + n.toNat) :
    op = encode (.drw x y n) :=
  BitVec.eq_of_toNat_eq (h.trans (toNat_wordPXYN 0xD#4 x y n).symm)

theorem readV_drawn_vf : (drawn x y n s).readV vf =
    flagByte (composite (s.readV x) (s.readV y) (spriteRows s n) s.disp).2 :=
  readV_writeV_same s vf _

theorem readV_drawn_other (hk : k ≠ vf) : (drawn x y n s).readV k = s.readV k :=
  readV_writeV_other s vf k _ hk

theorem keepsRegsExcept_drawn : KeepsRegsExcept [vf] s (drawn x y n s) :=
  keepsRegsExcept_writeV vf _

theorem flagByte_eq_one_or_zero (b : Bool) : flagByte b = 1 ∨ flagByte b = 0 := by
  cases b
  · exact .inr rfl
  · exact .inl rfl

/-- The mask of the sprite at I, by the bytes of RAM (R109). -/
theorem spriteCovers_spriteRows_iff {vx vy : Byte} {xx yy : Nat} :
    spriteCovers vx vy (spriteRows s n) xx yy ↔
      ∃ r c : Nat, r < n.toNat ∧ c < 8 ∧ yy = vy.toNat % 32 + r ∧ xx = vx.toNat % 64 + c ∧
        (s.readByte (s.i.toNat + r)).getLsbD (7 - c) = true := by
  unfold spriteCovers
  rw [length_spriteRows]
  refine exists₂_congr fun r c => and_congr_right fun hr => ?_
  rw [getD_spriteRows s hr]

/-- A second draw, its origin registers not VF, composites the same rows at the same place. -/
theorem composite_of_drawn (hx : x ≠ vf) (hy : y ≠ vf) (d : Display) :
    composite ((drawn x y n s).readV x) ((drawn x y n s).readV y) (spriteRows (drawn x y n s) n) d =
      composite (s.readV x) (s.readV y) (spriteRows s n) d := by
  rw [readV_drawn_other hx, readV_drawn_other hy]
  rfl

theorem drawn_drawn_disp (hx : x ≠ vf) (hy : y ≠ vf) : (drawn x y n (drawn x y n s)).disp = s.disp := by
  have h : (drawn x y n (drawn x y n s)).disp = _ := congrArg Prod.fst (composite_of_drawn hx hy (drawn x y n s).disp)
  exact h.trans (composite_composite_display _ _ _ s.disp)

theorem readV_drawn_drawn_vf_iff (hx : x ≠ vf) (hy : y ≠ vf) :
    (drawn x y n (drawn x y n s)).readV vf = 1 ↔
      ∃ xx yy, xx < 64 ∧ yy < 32 ∧ spriteCovers (s.readV x) (s.readV y) (spriteRows s n) xx yy ∧
        Display.pixel s.disp xx yy = false := by
  rw [readV_drawn_vf, flagByte_eq_one, composite_of_drawn hx hy]
  exact composite_composite_collides_iff _ _ _ s.disp

end Draw

/-- Settles O46: the state DRW leaves, with the compositor's closed form. -/
theorem drawIsXorWithCollision : Obligations.DrawIsXorWithCollision := by
  intro x y n s hb
  have h := exec_drw_of_inBounds (x := x) (y := y) hb
  obtain ⟨hpix, hhit⟩ := composite_spec (s.readV x) (s.readV y) (spriteRows s n) s.disp
  have hvf : (drawn x y n s).readV 0xF = _ := readV_drawn_vf
  refine ⟨_, spriteRows s n, h, length_spriteRows s n, fun r hr => getD_spriteRows s hr, hpix, ?_, ?_,
    keepsRegsExcept_drawn, rfl, rfl, ⟨rfl, rfl⟩, keepsRest_of_exec h rfl, rfl⟩
  · rw [hvf]
    exact flagByte_eq_one_or_zero _
  · rw [hvf]
    exact flagByte_eq_one.trans hhit

/-- Settles O47: the record's word is the instruction's, and the fault writes nothing else. -/
theorem drawOutsideRamHalts : Obligations.DrawOutsideRamHalts := by
  intro x y n op s hn h hop
  rw [eq_encode_drw hop]
  exact exec_drw_of_outOfBounds hn h

/-- Settles O48: the first draw leaves the origin and the rows, so the second XORs the same mask. -/
theorem drawTwiceRestoresDisplay : Obligations.DrawTwiceRestoresDisplay := by
  intro x y n s t u hx hy hb ht hu
  obtain rfl := Host.Outcome.next.inj ((exec_drw_of_inBounds hb).symm.trans ht)
  obtain rfl := Host.Outcome.next.inj ((exec_drw_of_inBounds (s := drawn x y n s) hb).symm.trans hu)
  refine ⟨drawn_drawn_disp hx hy, (readV_drawn_drawn_vf_iff hx hy).trans ?_⟩
  simp only [spriteCovers_spriteRows_iff]
  constructor
  · rintro ⟨xx, yy, hxx, hyy, ⟨r, c, hr, hc, hrow, hcol, hbit⟩, hoff⟩
    exact ⟨r, c, xx, yy, hr, hc, hxx, hyy, hcol, hrow, hbit, hoff⟩
  · rintro ⟨r, c, xx, yy, hr, hc, hxx, hyy, hcol, hrow, hbit, hoff⟩
    exact ⟨xx, yy, hxx, hyy, ⟨r, c, hr, hc, hrow, hcol, hbit⟩, hoff⟩

/-! ### The second draw on a lit display (log entry 15) -/

/-- The machine after reset with every pixel 1: I is 0, where glyph 0 of the font begins with 0xF0. -/
def litReset : State := { State.reset with disp := Vector.replicate 32 (BitVec.allOnes 64) }

theorem pixel_litReset {xx yy : Nat} (hx : xx < 64) (hy : yy < 32) : Display.pixel litReset.disp xx yy = true := by
  simp only [Display.pixel, litReset, dif_pos hy, Vector.getElem_replicate, BitVec.getLsbD_allOnes, hx, decide_true]

/-- Refutes O49: on `litReset` every covered pixel was 1, so DRW V0,V1,1 run twice ends with VF = 0. -/
theorem not_secondDrawOfUnclippedSpriteAlwaysCollides :
    ¬ Obligations.SecondDrawOfUnclippedSpriteAlwaysCollides := by
  intro h
  have hb : (1 : Nibble).toNat = 0 ∨ litReset.i.toNat + (1 : Nibble).toNat - 1 < 4096 := .inr (by decide)
  have ht : exec (.drw 0 1 1) litReset = .next (drawn 0 1 1 litReset) := exec_drw_of_inBounds hb
  have hu : exec (.drw 0 1 1) (drawn 0 1 1 litReset) = .next (drawn 0 1 1 (drawn 0 1 1 litReset)) :=
    exec_drw_of_inBounds hb
  have hbit : (litReset.readByte (litReset.i.toNat + 0)).getLsbD (7 - 0) = true := by decide
  have hvf := h 0 1 1 _ _ _ (by decide) (by decide) hb ht hu
    ⟨0, 0, by decide, by decide, by decide, by decide, hbit⟩
  obtain ⟨_, _, xx, yy, -, -, hxx, hyy, -, -, -, hoff⟩ :=
    (drawTwiceRestoresDisplay 0 1 1 _ _ _ (by decide) (by decide) hb ht hu).2.mp hvf
  rw [pixel_litReset hxx hyy] at hoff
  exact nomatch hoff

end Sys2Proof.Machine

/-! SUPPORT. The seventeen without effect (44_unimplemented.md): R115's operation under each of the two policies, at the
instructions whose row has no implementation. -/

namespace Sys2Proof.Machine

section Unimplemented

variable {i : Instr} {s : State}

theorem unimplPolicy_eq_nop_of_ne_fault {p : UnimplPolicy} (h : p ≠ .fault) : p = .nop := by
  cases p with
  | nop => rfl
  | fault => exact absurd rfl h

theorem exec_unimplemented_of_nop (hi : i.row ∈ unimplementedRows) (hp : s.params.unimplPolicy = .nop) :
    exec i s = .next { s with redraw := some false } :=
  (exec_unimplemented hi).trans (unimplemented_eq_next.mpr (.inl ⟨hp, rfl⟩))

theorem exec_unimplemented_of_fault (hi : i.row ∈ unimplementedRows) (hp : s.params.unimplPolicy = .fault) :
    exec i s = .next (raiseFault (.unimplemented (encode i) (instrAddr s)) s) :=
  (exec_unimplemented hi).trans (unimplemented_eq_next.mpr (.inr ⟨hp, rfl⟩))

/-- Under `Nop` each of the seventeen completes and keeps everything but the redraw value. -/
theorem exec_unimplemented_no_effect (hi : i.row ∈ unimplementedRows) (hp : s.params.unimplPolicy = .nop) :
    ∃ t, exec i s = .next t ∧ KeepsRegsExcept [] s t ∧ KeepsOutsideRegs s t ∧ t.redraw = some false :=
  ⟨_, exec_unimplemented_of_nop hi hp, keepsRegsExcept_refl [], keepsOutsideRegs_of_v rfl _, rfl⟩

/-- Unless the policy is `Fault`, a list of instructions whose rows are all among the seventeen has no effect. -/
theorem exec_no_effect_of_rows {is : List Instr} (hrows : is.map Instr.row ⊆ unimplementedRows)
    (hp : s.params.unimplPolicy ≠ .fault) :
    ∀ i ∈ is, ∃ t, exec i s = .next t ∧ KeepsRegsExcept [] s t ∧ KeepsOutsideRegs s t ∧ t.redraw = some false :=
  fun _ hi => exec_unimplemented_no_effect (hrows (List.mem_map_of_mem hi)) (unimplPolicy_eq_nop_of_ne_fault hp)

end Unimplemented

/-- Settles O51: whatever their operands, the eleven have unimplemented rows. -/
theorem unimplementedInstructionsHaveNoEffect : Obligations.UnimplementedInstructionsHaveNoEffect := by
  intro x y kk nnn s hp
  have hrows : [17, 18, 19, 22, 23, 25, 26, 27, 28, 29, 30] ⊆ unimplementedRows := by decide
  exact exec_no_effect_of_rows hrows hp

/-- Settles O52: whatever their operand, the five that would reach I, the font and RAM have unimplemented rows. -/
theorem unimplementedIndexInstructionsHaveNoEffect : Obligations.UnimplementedIndexInstructionsHaveNoEffect := by
  intro x s hp
  have hrows : [31, 32, 33, 34, 35] ⊆ unimplementedRows := by decide
  exact exec_no_effect_of_rows hrows hp

/-- Settles O53: SYS is row 3, and under `Fault` the record is raised on the state fetch left. -/
theorem sysHasNoEffectAndFaultPolicyHalts : Obligations.SysHasNoEffectAndFaultPolicyHalts :=
  have sys_row (nnn : Addr) : (Instr.sys nnn).row ∈ unimplementedRows := List.mem_cons_self
  ⟨fun nnn _ hp => exec_unimplemented_no_effect (sys_row nnn) hp, fun _ _ hi hp => exec_unimplemented_of_fault hi hp⟩

end Sys2Proof.Machine

/-! SUPPORT. Faults and the driver (60_exceptions.md): the condition of each fault at the state a step starts from, the fields
of its record, and the timer tick. -/

namespace Sys2Proof.Machine

/-- Settles O25, operation by operation: `load_rom` writes above the font, and a decremented zero timer stays 0. -/
theorem driverKeepsInvariant : Obligations.DriverKeepsInvariant := fun _ _ _ _ => drive_keeps_inv

/-! ### When a step faults (R136 to R143) -/

/-- What holds before a step that halts with this record. -/
def FaultCondition (s : State) : FaultRecord → Prop
  | .fetchOutOfBounds a => 4096 ≤ s.pc.toNat + 1 ∧ a = s.pc
  | .decodeFailure op a => s.pc.toNat + 1 < 4096 ∧ decode (nextWord s) = none ∧ op = nextWord s ∧ a = s.pc
  | .stackUnderflow op a =>
    s.pc.toNat + 1 < 4096 ∧ nextWord s = 0x00EE ∧ s.sp.val = 0 ∧ op = nextWord s ∧ a = s.pc
  | .stackOverflow op a =>
    s.pc.toNat + 1 < 4096 ∧ (nextWord s).toNat / 4096 = 2 ∧ s.sp.val = 16 ∧ op = nextWord s ∧ a = s.pc
  | .spriteOutOfBounds op a i n =>
    s.pc.toNat + 1 < 4096 ∧ (nextWord s).toNat / 4096 = 13 ∧ n.toNat = (nextWord s).toNat % 16 ∧ 0 < n.toNat ∧ i = s.i ∧
      4096 ≤ i.toNat + n.toNat - 1 ∧ op = nextWord s ∧ a = s.pc
  | .unimplemented op a =>
    s.pc.toNat + 1 < 4096 ∧ s.params.unimplPolicy = .fault ∧
      (∃ i, decode (nextWord s) = some i ∧ i.row ∈ unimplementedRows) ∧ op = nextWord s ∧ a = s.pc

section FaultCondition

variable {s t : State} {i : Instr} {f : FaultRecord}

theorem faultCondition_of_step (h : step s = .next t) (hf : t.status = .halted f) : FaultCondition s f := by
  obtain ⟨hr, ⟨hb, rfl⟩ | ⟨hb, hd, rfl⟩ | ⟨hb, i, hd, he⟩⟩ := step_cases h
  · cases hf
    exact ⟨hb, rfl⟩
  · cases hf
    exact ⟨hb, hd, rfl, rfl⟩
  · have hw := encode_of_decode hd
    obtain ⟨-, hkind⟩ := exec_halts he hr hf
    rw [hw, instrAddr_afterFetch] at hkind
    obtain ⟨rfl, rfl, hsp⟩ | ⟨rfl, ⟨nnn, rfl⟩, hsp⟩ | ⟨x, y, n, rfl, rfl, hn, hout⟩ | ⟨rfl, hi, hp⟩ := hkind
    · exact ⟨hb, hw.symm, hsp, rfl, rfl⟩
    · exact ⟨hb, hw ▸ toNat_wordPNNN_div 0x2#4 nnn, hsp, rfl, rfl⟩
    · exact ⟨hb, hw ▸ toNat_wordPXYN_div 0xD#4 x y n, hw ▸ (toNat_wordPXYN_mod 0xD#4 x y n).symm, hn, rfl, hout, rfl, rfl⟩
    · exact ⟨hb, hp, ⟨i, hd, hi⟩, rfl, rfl⟩

/-- A fault raised by the decoded instruction's execute, with its record in terms of the word at `pc` and `pc` (R77, R154). -/
theorem step_of_exec_raises {record : Word → Word → FaultRecord} (hr : s.status = .running)
    (hb : s.pc.toNat + 1 < 4096) (hd : decode (nextWord s) = some i)
    (he : exec i (afterFetch s) =
      .next (raiseFault (record (encode i) (instrAddr (afterFetch s))) (afterFetch s))) :
    step s = .next (raiseFault (record (nextWord s) s.pc) (afterFetch s)) := by
  rw [step_of_decode_some hr hb hd, he, encode_of_decode hd, instrAddr_afterFetch]

theorem step_of_faultCondition (hr : s.status = .running) (hc : FaultCondition s f) :
    ∃ u, step s = .next (raiseFault f u) := by
  cases f with
  | fetchOutOfBounds a =>
    obtain ⟨hb, rfl⟩ := hc
    exact ⟨_, step_of_fetch_outOfBounds hr hb⟩
  | decodeFailure op a =>
    obtain ⟨hb, hd, rfl, rfl⟩ := hc
    exact ⟨_, step_of_decode_none hr hb hd⟩
  | stackUnderflow op a =>
    obtain ⟨hb, hw, hsp, rfl, rfl⟩ := hc
    have hd : decode (nextWord s) = some .ret := by rw [hw]; rfl
    exact ⟨_, step_of_exec_raises hr hb hd (exec_ret_of_empty hsp)⟩
  | stackOverflow op a =>
    obtain ⟨hb, hw, hsp, rfl, rfl⟩ := hc
    exact ⟨_, step_of_exec_raises hr hb (decode_of_div hw) (exec_call_of_full hsp)⟩
  | spriteOutOfBounds op a j n =>
    obtain ⟨hb, hw, hn, hpos, rfl, hout, rfl, rfl⟩ := hc
    obtain rfl : n = fieldN (nextWord s) := BitVec.eq_of_toNat_eq (hn.trans (toNat_fieldN _).symm)
    exact ⟨_, step_of_exec_raises (record := (.spriteOutOfBounds · · s.i _)) hr hb (decode_of_div hw)
      (exec_drw_of_outOfBounds hpos hout)⟩
  | unimplemented op a =>
    obtain ⟨hb, hp, ⟨i, hd, hi⟩, rfl, rfl⟩ := hc
    exact ⟨_, step_of_exec_raises hr hb hd (exec_unimplemented_of_fault hi hp)⟩

theorem step_halts_iff (h : step s = .next t) (f : FaultRecord) : t.status = .halted f ↔ FaultCondition s f := by
  refine ⟨faultCondition_of_step h, fun hc => ?_⟩
  obtain ⟨u, hu⟩ := step_of_faultCondition (running_of_step h) hc
  obtain rfl := Host.Outcome.next.inj (h.symm.trans hu)
  rfl

end FaultCondition

/-- Settles O14: `step_halts_iff` at the six kinds of record. -/
theorem eachFaultExactlyOnItsCondition : Obligations.EachFaultExactlyOnItsCondition := by
  rintro s t w h (rfl : w = nextWord s)
  have hiff := step_halts_iff h
  exact ⟨fun _ => hiff _, fun _ _ => hiff _, fun _ _ => hiff _, fun _ _ => hiff _, fun _ _ _ _ => hiff _,
    fun _ _ => hiff _⟩

/-! ### The fields of a record (R154) -/

theorem opcode_eq_none_iff (f : FaultRecord) : f.opcode = none ↔ f.code = 4 := by
  cases f with
  | fetchOutOfBounds a => exact iff_of_true rfl rfl
  | _ => exact iff_of_false nofun nofun

theorem sprite_eq_none_iff (f : FaultRecord) : f.sprite = none ↔ f.code ≠ 5 := by
  cases f with
  | spriteOutOfBounds op a i n => exact iff_of_false nofun (absurd rfl)
  | _ => exact iff_of_true rfl nofun

/-- Settles O15: the codes and fields kind by kind, and which kinds lack a field. -/
theorem faultCodesAndFields : Obligations.FaultCodesAndFields := by
  refine ⟨fun op a i n => ⟨rfl, rfl, rfl, rfl, rfl, rfl, rfl, rfl, ?_, rfl⟩,
    fun f => ⟨opcode_eq_none_iff f, sprite_eq_none_iff f⟩⟩
  simp [FaultRecord.addr, FaultRecord.opcode]

/-! ### The timer tick (R148) -/

theorem toNat_decrementTimer (t : Byte) : (decrementTimer t).toNat = t.toNat - 1 := by
  unfold decrementTimer
  split
  · bv_omega
  · omega

theorem tickTimers_of_running {s : State} (hr : s.status = .running) :
    tickTimers s = .next ({ s with dt := decrementTimer s.dt, st := decrementTimer s.st }, .unit) := by
  unfold tickTimers
  rw [hr]

/-- Settles O56: while Running the tick is `decrementTimer` on each timer. -/
theorem tickDecrementsTimersToZero : Obligations.TickDecrementsTimersToZero := fun s hr =>
  ⟨_, _, toNat_decrementTimer s.dt, toNat_decrementTimer s.st, tickTimers_of_running hr⟩

end Sys2Proof.Machine

/-! SUPPORT. The keypad and the timers seen from the program (70_reset_and_hazards.md R164): execute, step and every driver
operation but `SetKey` and `tick_timers` do the same whatever these fields hold, and leave them alone. -/

namespace Sys2Proof.Machine

/-- `s` with the timers and the keypad of `k`. -/
def State.withInputs (s k : State) : State := { s with dt := k.dt, st := k.st, keys := k.keys }

theorem sameBesidesInputs_withInputs (s k : State) : SameBesidesInputs s (s.withInputs k) :=
  ⟨rfl, rfl, rfl, rfl, rfl, rfl, rfl, rfl, rfl, rfl, rfl⟩

section Execute

variable {i : Instr} {s t u k : State} {w : Word} {x : Nibble} {res f : Byte}

theorem complete_withInputs {r : Bool} (h : complete r u = .next t) :
    complete r (u.withInputs k) = .next (t.withInputs k) := by
  obtain rfl := complete_eq_next.mp h
  rfl

theorem skipIf_withInputs {c : Bool} (h : skipIf c s = .next t) :
    skipIf c (s.withInputs k) = .next (t.withInputs k) := by
  obtain rfl := skipIf_eq_next.mp h
  exact skipIf_eq_next.mpr rfl

theorem unimplemented_withInputs {op : Word} (h : unimplemented op s = .next t) :
    unimplemented op (s.withInputs k) = .next (t.withInputs k) := by
  rcases unimplemented_eq_next.mp h with ⟨hp, rfl⟩ | ⟨hp, rfl⟩
  · exact unimplemented_eq_next.mpr (.inl ⟨hp, rfl⟩)
  · exact unimplemented_eq_next.mpr (.inr ⟨hp, rfl⟩)

theorem writeResultAndFlag_withInputs :
    (s.withInputs k).writeResultAndFlag x res f = (s.writeResultAndFlag x res f).withInputs k := by
  unfold State.writeResultAndFlag
  split <;> rfl

theorem completeResultAndFlag_withInputs (h : complete false (s.writeResultAndFlag x res f) = .next t) :
    complete false ((s.withInputs k).writeResultAndFlag x res f) = .next (t.withInputs k) :=
  writeResultAndFlag_withInputs ▸ complete_withInputs h

theorem pop_withInputs (h : s.pop = some (w, u)) : (s.withInputs k).pop = some (w, u.withInputs k) := by
  obtain ⟨hpos, rfl, rfl⟩ := pop_eq_some h
  exact pop_of_pos (s := s.withInputs k) hpos

theorem push_withInputs (h : s.push w = some u) : (s.withInputs k).push w = some (u.withInputs k) := by
  obtain ⟨hlt, rfl⟩ := push_eq_some h
  exact push_of_lt (s := s.withInputs k) hlt w

/-- No instruction reads the keypad or the timers (44_unimplemented.md R134). -/
theorem exec_withInputs (h : exec i s = .next t) : exec i (s.withInputs k) = .next (t.withInputs k) := by
  cases i with
  | ret =>
    rcases execRet_eq_next.mp h with ⟨w, u, hp, rfl⟩ | ⟨hp, rfl⟩
    · exact exec_ret_of_pop (pop_withInputs hp)
    · have hsp : s.sp.val = 0 := pop_eq_none.mp hp
      exact exec_ret_of_empty hsp
  | call nnn =>
    rcases execCall_eq_next.mp h with ⟨u, hp, rfl⟩ | ⟨hp, rfl⟩
    · exact exec_call_of_push (push_withInputs (k := k) hp)
    · have hsp : s.sp.val = 16 := push_eq_none.mp hp
      exact exec_call_of_full hsp
  | drw x y n =>
    rcases execDrw_eq_next.mp h with ⟨hb, rfl⟩ | ⟨hb, rfl⟩
    · exact execDrw_eq_next.mpr (.inl ⟨hb, rfl⟩)
    · exact execDrw_eq_next.mpr (.inr ⟨hb, rfl⟩)
  | cls | jp _ | ldI _ | ldImm _ _ | addImm _ _ | ldReg _ _ | orReg _ _ | andReg _ _ | xorReg _ _ =>
    exact complete_withInputs h
  | addReg _ _ | subReg _ _ => exact completeResultAndFlag_withInputs h
  | seImm _ _ | sneImm _ _ | seReg _ _ | sneReg _ _ => exact skipIf_withInputs h
  | _ => exact unimplemented_withInputs h

/-- Nor do fetch and the decoder, so a step goes the same way and to the same state. -/
theorem step_withInputs (h : step s = .next t) : step (s.withInputs k) = .next (t.withInputs k) := by
  obtain ⟨hr, ⟨hb, rfl⟩ | ⟨hb, hd, rfl⟩ | ⟨hb, i, hd, he⟩⟩ := step_cases h
  · exact step_of_fetch_outOfBounds hr hb
  · exact step_of_decode_none hr hb hd
  · exact (step_of_decode_some (s := s.withInputs k) hr hb hd).trans (exec_withInputs he)

end Execute

section Drive

variable {s t k : State} {r : Reply} {op : DriverOp}

theorem loadRom_withInputs {bytes : List Byte} (h : loadRom bytes s = .next (t, r)) :
    loadRom bytes (s.withInputs k) = .next (t.withInputs k, r) := by
  unfold loadRom at h
  split at h
  · exact nomatch h
  · next hs =>
    have hs : (s.withInputs k).stepped = false := Bool.eq_false_iff.mpr hs
    split at h
    · next hl => cases h; exact loadRom_of_tooLarge hs hl
    · next hl => cases h; exact loadRom_of_fits hs (Nat.le_of_not_lt hl)

theorem driveStep_of_step (h : step s = .next t) : driveStep s = .next (t, .redraw t.redraw) := by
  unfold driveStep
  rw [h]

theorem getPixel_withInputs {x y : Nat} (h : getPixel x y s = .next (t, r)) :
    getPixel x y (s.withInputs k) = .next (t.withInputs k, r) := by
  unfold getPixel at h
  split at h
  · next hxy => cases h; exact getPixel_of_lt hxy.1 hxy.2
  · exact nomatch h

/-- The driver's other operations commute with setting the inputs; the reply of read state alone shows them. -/
theorem drive_withInputs (hop : op.isInput = false) (h : drive op s = .next (t, r)) :
    ∃ r', drive op (s.withInputs k) = .next (t.withInputs k, r') := by
  cases op with
  | loadRom bytes => exact ⟨r, loadRom_withInputs h⟩
  | step => exact ⟨_, driveStep_of_step (step_withInputs (driveStep_eq_next h))⟩
  | getPixel x y => exact ⟨r, getPixel_withInputs h⟩
  | readState => cases h; exact ⟨_, rfl⟩
  | tickTimers => exact nomatch hop
  | setKey _ _ => exact nomatch hop

theorem tickTimers_sets_inputs (h : tickTimers s = .next (t, r)) : t = s.withInputs t := by
  unfold tickTimers at h
  split at h
  · cases h; rfl
  · exact nomatch h

theorem setKey_sets_inputs {j : Nat} {b : Bool} (h : setKey j b s = .next (t, r)) : t = s.withInputs t := by
  unfold setKey at h
  split at h
  · split at h
    · cases h; rfl
    · exact nomatch h
  · exact nomatch h

theorem drive_sets_inputs (hop : op.isInput = true) (h : drive op s = .next (t, r)) : t = s.withInputs t := by
  cases op with
  | tickTimers => exact tickTimers_sets_inputs h
  | setKey _ _ => exact setKey_sets_inputs h
  | loadRom _ => exact nomatch hop
  | step => exact nomatch hop
  | getPixel _ _ => exact nomatch hop
  | readState => exact nomatch hop

theorem withInputs_of_drive (hop : op.isInput = true) (h : drive op s = .next (t, r)) :
    s.withInputs k = t.withInputs k := by
  rw [drive_sets_inputs hop h]
  rfl

theorem session_cons {ops : List DriverOp} (h : drive op s = .next (t, r)) : session (op :: ops) s = session ops t := by
  rw [session, h]

/-- The session without its input operations, started with any inputs, keeps these and ends as the whole session does. -/
theorem session_withInputs {ops : List DriverOp} (h : session ops s = .next t) :
    session (ops.filter fun op => !op.isInput) (s.withInputs k) = .next (t.withInputs k) := by
  induction ops generalizing s with
  | nil => cases h; rfl
  | cons op ops ih =>
    obtain ⟨u, r, hu, h⟩ := session_cons_eq_next h
    cases hop : op.isInput with
    | true =>
      rw [List.filter_cons_of_neg (by simp [hop]), withInputs_of_drive hop hu]
      exact ih h
    | false =>
      obtain ⟨r', hu'⟩ := drive_withInputs (k := k) hop hu
      rw [List.filter_cons_of_pos (by simp [hop]), session_cons hu']
      exact ih h

end Drive

/-- Settles O27: by induction on the operations, the session without its inputs ends as the whole session does but for the
inputs, which stay those of the start. -/
theorem driverInputsDoNotReachTheProgram : Obligations.DriverInputsDoNotReachTheProgram := fun _ s t h =>
  ⟨t.withInputs s, session_withInputs (k := s) h, sameBesidesInputs_withInputs t s⟩

/-! ### Boot (R155, R156, R158) -/

section Boot

variable (p : Params) (hi lo : Byte) (rest : List Byte)

theorem readV_construct (x : Nibble) : (State.construct p).readV x = 0 := by
  simp [State.readV, State.construct]

/-- The word at the entry address is the ROM's first two bytes, big-endian (20_memory.md R42, R50). -/
theorem nextWord_copyRom_construct (hl : (hi :: lo :: rest).length ≤ romCapacity) :
    nextWord (copyRom (hi :: lo :: rest) (State.construct p)) = hi ++ lo := by
  have hread (a : Nat) := readByte_copyRom (State.construct p) (hi :: lo :: rest) a hl Memory.nil_wf
  have hhi : (copyRom (hi :: lo :: rest) (State.construct p)).readByte 0x200 = hi :=
    (hread 0x200).trans (if_pos (by simp [programStart]))
  have hlo : (copyRom (hi :: lo :: rest) (State.construct p)).readByte 0x201 = lo :=
    (hread 0x201).trans (if_pos (by simp only [programStart, List.length_cons]; omega))
  exact congrArg₂ (· ++ ·) hhi hlo

end Boot

/-- Settles O59: `load_rom` keeps all but RAM, and the first fetch reads the ROM's first word. -/
theorem bootRunsTheFirstRomWord : Obligations.BootRunsTheFirstRomWord := by
  intro p hi lo rest i hlen hd
  have hl : (hi :: lo :: rest).length ≤ romCapacity := Nat.add_le_add_right hlen 2
  have hpc : (State.construct p).pc.toNat + 1 < 4096 := show 0x200 + 1 < 4096 by decide
  refine ⟨_, session_cons (loadRom_of_fits rfl hl), rfl, readV_construct p, step_of_decode_some rfl hpc ?_⟩
  rw [nextWord_copyRom_construct p hi lo rest hl, hd]

end Sys2Proof.Machine
